-- ==== Sys2Proof/Word.lean ====
section
/-! DEFINITION. The word types of the machine: spec/00_scope.md R5 and R8 fix every width. -/

namespace Sys2Proof

/-- A byte: 8 bits (R8). General registers, timers and memory cells hold one. -/
abbrev Byte := BitVec 8

/-- A word: 16 bits (R8). `I`, `pc`, a stack entry and an instruction word are one each. -/
abbrev Word := BitVec 16

/-- The 12-bit address operand `nnn` of an instruction (R62). -/
abbrev Addr := BitVec 12

/-- The index of a general register, `0` to `15` (R10). -/
abbrev Reg := Fin 16

/-- A key value `0x0` to `0xF` (R29). -/
abbrev Key := BitVec 4

/-- `VF`, register 15: the flag register and an ordinary register (R11). -/
abbrev VF : Reg := 15

end Sys2Proof
end

