-- ==== Sys2Proof/Syntax.lean ====
section
/-! DEFINITION. The instruction set: one constructor for each of the 35 rows of spec/30_encoding.md R66 and
spec/opcode_table.json, named after the variants of R65. Every operand has exactly the values its encoded field has
(R62, R64), so no ill-formed instruction can be written down (log entry 27). -/

namespace Sys2Proof

inductive Instr where
  /-- `0000` HALT -/
  | halt
  /-- `00E0` CLS -/
  | clearScreen
  /-- `00EE` RET -/
  | ret
  /-- `1nnn` JP nnn -/
  | jump (nnn : Addr)
  /-- `2nnn` CALL nnn -/
  | call (nnn : Addr)
  /-- `3xkk` SE Vx, kk -/
  | skipEqImm (x : Reg) (kk : Byte)
  /-- `4xkk` SNE Vx, kk -/
  | skipNeImm (x : Reg) (kk : Byte)
  /-- `5xy0` SE Vx, Vy -/
  | skipEqReg (x y : Reg)
  /-- `6xkk` LD Vx, kk -/
  | loadImm (x : Reg) (kk : Byte)
  /-- `7xkk` ADD Vx, kk -/
  | addImm (x : Reg) (kk : Byte)
  /-- `8xy0` LD Vx, Vy -/
  | move (x y : Reg)
  /-- `8xy1` OR Vx, Vy -/
  | or (x y : Reg)
  /-- `8xy2` AND Vx, Vy -/
  | and (x y : Reg)
  /-- `8xy3` XOR Vx, Vy -/
  | xor (x y : Reg)
  /-- `8xy4` ADD Vx, Vy -/
  | add (x y : Reg)
  /-- `8xy5` SUB Vx, Vy -/
  | sub (x y : Reg)
  /-- `8xy6` SHR Vx; `y` is an encoded operand that is never read (R67) -/
  | shiftRight (x y : Reg)
  /-- `8xy7` SUBN Vx, Vy -/
  | subN (x y : Reg)
  /-- `8xyE` SHL Vx; `y` is an encoded operand that is never read (R67) -/
  | shiftLeft (x y : Reg)
  /-- `9xy0` SNE Vx, Vy -/
  | skipNeReg (x y : Reg)
  /-- `Annn` LD I, nnn -/
  | loadI (nnn : Addr)
  /-- `Bnnn` JP V0, nnn -/
  | jumpOffset (nnn : Addr)
  /-- `Cxkk` RND Vx, kk -/
  | randomAnd (x : Reg) (kk : Byte)
  /-- `Dxyn` DRW Vx, Vy, n -/
  | draw (x y : Reg) (n : Fin 16)
  /-- `Ex9E` SKP Vx -/
  | skipKeyPressed (x : Reg)
  /-- `ExA1` SKNP Vx -/
  | skipKeyNotPressed (x : Reg)
  /-- `Fx07` LD Vx, DT -/
  | readDelay (x : Reg)
  /-- `Fx0A` LD Vx, K -/
  | waitForKeyPress (x : Reg)
  /-- `Fx15` LD DT, Vx -/
  | setDelay (x : Reg)
  /-- `Fx18` LD ST, Vx -/
  | setSound (x : Reg)
  /-- `Fx1E` ADD I, Vx -/
  | addI (x : Reg)
  /-- `Fx29` LD F, Vx -/
  | setIToFontDigit (x : Reg)
  /-- `Fx33` LD B, Vx -/
  | binaryCodeI (x : Reg)
  /-- `Fx55` LD [I], Vx -/
  | copyRegistersToI (x : Reg)
  /-- `Fx65` LD Vx, [I] -/
  | copyIToRegisters (x : Reg)
  deriving DecidableEq, Repr

end Sys2Proof
end

