-- ==== Sys2Proof/Decode.lean ====
section
/-! DEFINITION. Byte order, fields, the decode function and the encoder (spec/20_memory.md R46, spec/30_encoding.md
R60 to R68). -/

namespace Sys2Proof

/-- Why bytes decode to no instruction. -/
inductive DecodeReject where
  /-- The word matches no row of the opcode map: `DecodeError(w)` (R65, R68). -/
  | illegalWord (w : Word)
  /-- Fewer than the two bytes of an instruction are there (R60). -/
  | missingBytes
  deriving DecidableEq, Repr

/-- R46, R61: an instruction is two bytes, the one at the lower address holding the high half. -/
def wordOfBytes (hi lo : Byte) : Word := hi ++ lo

/-- The byte of a word stored at the lower address (R46). -/
def hiByte (w : Word) : Byte := w.extractLsb' 8 8

/-- The byte of a word stored at the higher address (R46). -/
def loByte (w : Word) : Byte := w.extractLsb' 0 8

/-- R62: `fam = w[15:12]`. -/
def famOf (w : Word) : BitVec 4 := w.extractLsb' 12 4

/-- R62: `x = w[11:8]`. -/
def xOf (w : Word) : Reg := (w.extractLsb' 8 4).toFin

/-- R62: `y = w[7:4]`. -/
def yOf (w : Word) : Reg := (w.extractLsb' 4 4).toFin

/-- R62: `n = w[3:0]`. -/
def nOf (w : Word) : Fin 16 := (w.extractLsb' 0 4).toFin

/-- R62: `kk = w[7:0]`. -/
def kkOf (w : Word) : Byte := w.extractLsb' 0 8

/-- R62: `nnn = w[11:0]`. -/
def nnnOf (w : Word) : Addr := w.extractLsb' 0 12

/-- R65, family `0`: three fixed words; every other `0nnn` is illegal (conflict C3). -/
def decodeFamily0 (w : Word) : Except DecodeReject Instr :=
  if w = 0x0000#16 then .ok .halt
  else if w = 0x00E0#16 then .ok .clearScreen
  else if w = 0x00EE#16 then .ok .ret
  else .error (.illegalWord w)

/-- R65, family `8`: the low nibble selects (conflict C2: nine sub-opcodes). -/
def decodeFamily8 (w : Word) : Except DecodeReject Instr :=
  match (nOf w).val with
  | 0x0 => .ok (.move (xOf w) (yOf w))
  | 0x1 => .ok (.or (xOf w) (yOf w))
  | 0x2 => .ok (.and (xOf w) (yOf w))
  | 0x3 => .ok (.xor (xOf w) (yOf w))
  | 0x4 => .ok (.add (xOf w) (yOf w))
  | 0x5 => .ok (.sub (xOf w) (yOf w))
  | 0x6 => .ok (.shiftRight (xOf w) (yOf w))
  | 0x7 => .ok (.subN (xOf w) (yOf w))
  | 0xE => .ok (.shiftLeft (xOf w) (yOf w))
  | _ => .error (.illegalWord w)

/-- R65, family `E`: the low byte selects. -/
def decodeFamilyE (w : Word) : Except DecodeReject Instr :=
  match (kkOf w).toNat with
  | 0x9E => .ok (.skipKeyPressed (xOf w))
  | 0xA1 => .ok (.skipKeyNotPressed (xOf w))
  | _ => .error (.illegalWord w)

/-- R65, family `F`: the low byte selects. -/
def decodeFamilyF (w : Word) : Except DecodeReject Instr :=
  match (kkOf w).toNat with
  | 0x07 => .ok (.readDelay (xOf w))
  | 0x0A => .ok (.waitForKeyPress (xOf w))
  | 0x15 => .ok (.setDelay (xOf w))
  | 0x18 => .ok (.setSound (xOf w))
  | 0x1E => .ok (.addI (xOf w))
  | 0x29 => .ok (.setIToFontDigit (xOf w))
  | 0x33 => .ok (.binaryCodeI (xOf w))
  | 0x55 => .ok (.copyRegistersToI (xOf w))
  | 0x65 => .ok (.copyIToRegisters (xOf w))
  | _ => .error (.illegalWord w)

/-- R65: `Decode(w)`, total over all words. A family nibble is below 16, so the last arm is never taken. -/
def decode (w : Word) : Except DecodeReject Instr :=
  match (famOf w).toNat with
  | 0x0 => decodeFamily0 w
  | 0x1 => .ok (.jump (nnnOf w))
  | 0x2 => .ok (.call (nnnOf w))
  | 0x3 => .ok (.skipEqImm (xOf w) (kkOf w))
  | 0x4 => .ok (.skipNeImm (xOf w) (kkOf w))
  | 0x5 => if nOf w = 0 then .ok (.skipEqReg (xOf w) (yOf w)) else .error (.illegalWord w)
  | 0x6 => .ok (.loadImm (xOf w) (kkOf w))
  | 0x7 => .ok (.addImm (xOf w) (kkOf w))
  | 0x8 => decodeFamily8 w
  | 0x9 => if nOf w = 0 then .ok (.skipNeReg (xOf w) (yOf w)) else .error (.illegalWord w)
  | 0xA => .ok (.loadI (nnnOf w))
  | 0xB => .ok (.jumpOffset (nnnOf w))
  | 0xC => .ok (.randomAnd (xOf w) (kkOf w))
  | 0xD => .ok (.draw (xOf w) (yOf w) (nOf w))
  | 0xE => decodeFamilyE w
  | 0xF => decodeFamilyF w
  | _ => .error (.illegalWord w)

/-- The decoder on a sequence of bytes: the instruction its first two bytes hold, and the bytes after them (R46,
R60). -/
def decodeBytes : List Byte → Except DecodeReject (Instr × List Byte)
  | hi :: lo :: rest =>
    match decode (wordOfBytes hi lo) with
    | .ok i => .ok (i, rest)
    | .error r => .error r
  | _ => .error .missingBytes

/-- What the decoder reads from an instruction whose bits are `w`, as spec/opcode_table.json numbers them: the word
laid out high byte first (R46), every bit from `nbits` up being zero. -/
def decodeTableWord (nbits w : Nat) : Option Instr :=
  let word : Word := BitVec.ofNat 16 (w % 2 ^ nbits)
  match decodeBytes [hiByte word, loByte word] with
  | .ok (i, _) => some i
  | .error _ => none

/-- Format A of R63. -/
def encA (fam : BitVec 4) (nnn : Addr) : Word := fam ++ nnn

/-- Format XK of R63, and XS with `kk` the fixed `sub8`. -/
def encXK (fam : BitVec 4) (x : Reg) (kk : Byte) : Word := fam ++ BitVec.ofFin (w := 4) x ++ kk

/-- Format XY of R63 with `sub` fixed, and XYN with `sub` the operand `n`. -/
def encXY (fam : BitVec 4) (x y : Reg) (sub : BitVec 4) : Word :=
  fam ++ BitVec.ofFin (w := 4) x ++ BitVec.ofFin (w := 4) y ++ sub

/-- The word of an instruction, from the patterns of R66. -/
def encode : Instr → Word
  | .halt => 0x0000#16
  | .clearScreen => 0x00E0#16
  | .ret => 0x00EE#16
  | .jump nnn => encA 0x1#4 nnn
  | .call nnn => encA 0x2#4 nnn
  | .skipEqImm x kk => encXK 0x3#4 x kk
  | .skipNeImm x kk => encXK 0x4#4 x kk
  | .skipEqReg x y => encXY 0x5#4 x y 0x0#4
  | .loadImm x kk => encXK 0x6#4 x kk
  | .addImm x kk => encXK 0x7#4 x kk
  | .move x y => encXY 0x8#4 x y 0x0#4
  | .or x y => encXY 0x8#4 x y 0x1#4
  | .and x y => encXY 0x8#4 x y 0x2#4
  | .xor x y => encXY 0x8#4 x y 0x3#4
  | .add x y => encXY 0x8#4 x y 0x4#4
  | .sub x y => encXY 0x8#4 x y 0x5#4
  | .shiftRight x y => encXY 0x8#4 x y 0x6#4
  | .subN x y => encXY 0x8#4 x y 0x7#4
  | .shiftLeft x y => encXY 0x8#4 x y 0xE#4
  | .skipNeReg x y => encXY 0x9#4 x y 0x0#4
  | .loadI nnn => encA 0xA#4 nnn
  | .jumpOffset nnn => encA 0xB#4 nnn
  | .randomAnd x kk => encXK 0xC#4 x kk
  | .draw x y n => encXY 0xD#4 x y (BitVec.ofFin (w := 4) n)
  | .skipKeyPressed x => encXK 0xE#4 x 0x9E#8
  | .skipKeyNotPressed x => encXK 0xE#4 x 0xA1#8
  | .readDelay x => encXK 0xF#4 x 0x07#8
  | .waitForKeyPress x => encXK 0xF#4 x 0x0A#8
  | .setDelay x => encXK 0xF#4 x 0x15#8
  | .setSound x => encXK 0xF#4 x 0x18#8
  | .addI x => encXK 0xF#4 x 0x1E#8
  | .setIToFontDigit x => encXK 0xF#4 x 0x29#8
  | .binaryCodeI x => encXK 0xF#4 x 0x33#8
  | .copyRegistersToI x => encXK 0xF#4 x 0x55#8
  | .copyIToRegisters x => encXK 0xF#4 x 0x65#8

/-- The bytes of an instruction in memory order (R46). -/
def encodeBytes (i : Instr) : List Byte := [hiByte (encode i), loByte (encode i)]

end Sys2Proof
end

