-- ==== Sys2Proof/Config.lean ====
section
/-! DEFINITION. What is fixed for the life of one machine (the named parameters of spec/00_scope.md R6), and the
free values: the answers of the keypad and of the random source that no pending host operation supplies (R7). -/

namespace Sys2Proof

/-- The named parameters of R6. A machine carries its own, and no operation changes them (log entries 4 and 5). -/
structure Config where
  /-- `FONT_BASE`: the address of the first font byte. -/
  fontBase : Nat
  /-- `FONT_DATA`: the font bytes, glyph `d` at offset `5*d`. -/
  fontData : List Byte
  /-- `STACK_DEPTH`: the largest number of return addresses held; `none` is unbounded. -/
  stackDepth : Option Nat
  deriving DecidableEq, Repr

/-- FREE VALUE (R7, R29; log entry 2): the keypad's answer to the `n`-th `Step` that no pending host operation
describes. Nothing is known of it. -/
opaque Config.freeKey : Nat → Option Key

/-- FREE VALUE (R7, R30; log entry 3): the random byte of the `n`-th `Step` that no pending host operation describes.
Nothing is known of it. -/
opaque Config.freeByte : Nat → Byte

end Sys2Proof
end

