-- ==== Sys2Proof/Machine/Font.lean ====
section
/-! DEFINITION. The default parameters of the machine (spec/00_scope.md R6, spec/20_memory.md R45). -/

namespace Sys2Proof.Machine

/-- R45: glyphs `0` to `7`, five bytes each, top row first. -/
def fontLow : List Byte :=
  [0xF0, 0x90, 0x90, 0x90, 0xF0] ++ [0x20, 0x60, 0x20, 0x20, 0x70] ++ [0xF0, 0x10, 0xF0, 0x80, 0xF0] ++
  [0xF0, 0x10, 0xF0, 0x10, 0xF0] ++ [0x90, 0x90, 0xF0, 0x10, 0x10] ++ [0xF0, 0x80, 0xF0, 0x10, 0xF0] ++
  [0xF0, 0x80, 0xF0, 0x90, 0xF0] ++ [0xF0, 0x10, 0x20, 0x40, 0x40]

/-- R45: glyphs `8` to `F`. -/
def fontHigh : List Byte :=
  [0xF0, 0x90, 0xF0, 0x90, 0xF0] ++ [0xF0, 0x90, 0xF0, 0x10, 0xF0] ++ [0xF0, 0x90, 0xF0, 0x90, 0x90] ++
  [0xE0, 0x90, 0xE0, 0x90, 0xE0] ++ [0xF0, 0x80, 0x80, 0x80, 0xF0] ++ [0xE0, 0x90, 0x90, 0x90, 0xE0] ++
  [0xF0, 0x80, 0xF0, 0x80, 0xF0] ++ [0xF0, 0x80, 0xF0, 0x80, 0x80]

/-- The default of every parameter (R6): font at `0x050`, the glyphs of R45, an unbounded call stack. UNVERIFIED, log
entry 5: the spec takes the glyph bytes from general knowledge of CHIP-8. -/
def defaultConfig : Config := { fontBase := 0x050, fontData := fontLow ++ fontHigh, stackDepth := none }

end Sys2Proof.Machine
end

