-- ==== Sys2Proof/Machine/State.lean ====
section
/-! DEFINITION. The state of the machine (spec/10_state.md R10 to R23), the reasons it can stop, and reset (R32). -/

namespace Sys2Proof.Machine

/-- The 4096-byte memory (R40): the bytes that differ from their reset contents, addresses strictly rising (log
entry 6). `Memory.wf` states the canonical form. -/
abbrev Memory := List Host.Cell

/-- The framebuffer, a grid of 64 columns by 32 rows of Boolean pixels (R19): row `y` of the outer vector holds
`fb[x][y]` at column `x`. -/
abbrev Display := Vector (Vector Bool 64) 32

/-- The kind of a recorded fault together with its `info` (R21, R150). -/
inductive FaultCause where
  /-- The fetched word matches no pattern; `info` is the word (R151). -/
  | decodeError (w : Word)
  /-- An access used an address of 4096 or more; `info` is that address, unreduced (R152). -/
  | memoryBoundsError (addr : Nat)
  /-- A pop of the empty call stack (R153). -/
  | stackUnderflow
  /-- A push on a full call stack, when `STACK_DEPTH` is finite (R154). -/
  | stackOverflow
  deriving DecidableEq, Repr

/-- The fault record held by `FAULTED(f)` (R21). -/
structure FaultRecord where
  /-- `kind` and `info`. -/
  cause : FaultCause
  /-- `fault_pc`: the address the faulting instruction was fetched from. -/
  faultPc : Word
  deriving DecidableEq, Repr

/-- The run state (R20). -/
inductive Mode where
  /-- The next `Step` fetches at `pc`. -/
  | running
  /-- An `Fx0A` waits for a key to store in `V[x]`. -/
  | waiting (x : Reg)
  /-- The zero word was fetched; the program ended without error. -/
  | halted
  /-- A fatal error was raised. -/
  | faulted (f : FaultRecord)
  deriving DecidableEq, Repr

/-- One operation of the host (R25 to R28). -/
inductive HostOp where
  /-- `Init(image)`, the only reset. -/
  | init (image : List Byte)
  /-- `Step(key, rnd)`, with the draws it may sample (R7). -/
  | step (key : Option Key) (rnd : Byte)
  /-- `Tick()`. -/
  | tick
  deriving DecidableEq, Repr

/-- The state. The first nine fields are the complete state of R23. The others are the MODEL'S OWN: the parameters of
this machine (R6, log entry 4), what the host does next (R25, log entry 1), the draws of the `Step` in progress (R7, log
entry 7) and its output event (R24, log entry 8). -/
structure State where
  /-- `V[0]` to `V[15]` (R10). -/
  v : Vector Byte 16
  /-- `I`, the index register (R12). -/
  i : Word
  /-- `pc` (R13). -/
  pc : Word
  /-- `DT`, the delay timer (R14). -/
  dt : Byte
  /-- `ST`, the sound timer (R15). -/
  st : Byte
  /-- The call stack, top first (R17). -/
  stack : List Word
  /-- `mem[0..4095]` (R40). -/
  mem : Memory
  /-- `fb` (R19). -/
  fb : Display
  /-- The run state and fault record (R20, R21). -/
  mode : Mode
  /-- MODEL'S OWN: the parameters of this machine (R6); no operation changes them. -/
  cfg : Config
  /-- MODEL'S OWN: the operations the host gives next, soonest first; when none is pending the host gives a `Step`. -/
  host : List HostOp
  /-- MODEL'S OWN: how many `Step`s took their draws from the free values of Config. -/
  draws : Nat
  /-- MODEL'S OWN: the keypad answer of the `Step` in progress (R29). -/
  key : Option Key
  /-- MODEL'S OWN: the random byte of the `Step` in progress (R30). -/
  rnd : Byte
  /-- MODEL'S OWN: the last operation emitted `FrameReady` (R24). -/
  frameReady : Bool
  deriving DecidableEq, Repr

/-- What stops this model from the outside. A fatal error of a running program is NOT one of these: R155 says the state
it leaves, and the step answers that state. -/
inductive Fault where
  /-- Raised by `Init` alone, for an image of more than 3584 bytes (R181): no machine is created, so there is no next
  state. Safe: nothing can be proved past it. No instruction raises it. -/
  | loadTooLarge
  deriving DecidableEq, Repr

/-- Why an instruction is not run. -/
inductive Refusal where
  /-- Raised by the dispatcher for an instruction without a meaning. Safe: nothing can be proved past it. Every
  instruction of this model has its meaning, so nothing raises it. -/
  | notModelled (mnemonic : String)
  deriving DecidableEq, Repr

/-- A machine with the given parameters right after `Init` of an empty image (R32, R180): memory holds its reset
contents, and nothing is pending from the host. -/
def State.fresh (cfg : Config) : State where
  v := Vector.replicate 16 0
  i := 0
  pc := 0x200
  dt := 0
  st := 0
  stack := []
  mem := []
  fb := Vector.replicate 32 (Vector.replicate 64 false)
  mode := .running
  cfg := cfg
  host := []
  draws := 0
  key := none
  rnd := 0
  frameReady := false

/-- The machine right after reset, with the default parameters (R6, R32). -/
def State.reset : State := State.fresh defaultConfig

end Sys2Proof.Machine
end

