-- ==== Sys2Proof/WellFormed.lean ====
section
/-! DEFINITION. What is well formed. An instruction always is, by the types of its operands (log entry 27); the checks
here are on the data that comes from outside: an instruction word (spec/30_encoding.md R66), the parameters of a machine
(spec/00_scope.md R6) and a program image (spec/70_reset_and_hazards.md R181). -/

namespace Sys2Proof

/-- A row of the opcode map: `w` is the row's instruction exactly when `w & mask = pattern` (R66). -/
structure OpRow where
  mask : Word
  pattern : Word
  deriving DecidableEq, Repr

/-- R66, rows 1 to 3: format Z. -/
def rowsZ : List OpRow := [⟨0xFFFF, 0x0000⟩, ⟨0xFFFF, 0x00E0⟩, ⟨0xFFFF, 0x00EE⟩]

/-- R66, the rows of formats A, XK and XYN, in the table's order. -/
def rowsWide : List OpRow :=
  [⟨0xF000, 0x1000⟩, ⟨0xF000, 0x2000⟩, ⟨0xF000, 0x3000⟩, ⟨0xF000, 0x4000⟩, ⟨0xF000, 0x6000⟩, ⟨0xF000, 0x7000⟩,
   ⟨0xF000, 0xA000⟩, ⟨0xF000, 0xB000⟩, ⟨0xF000, 0xC000⟩, ⟨0xF000, 0xD000⟩]

/-- R66, the rows of format XY, in the table's order. -/
def rowsXY : List OpRow :=
  [⟨0xF00F, 0x5000⟩, ⟨0xF00F, 0x8000⟩, ⟨0xF00F, 0x8001⟩, ⟨0xF00F, 0x8002⟩, ⟨0xF00F, 0x8003⟩, ⟨0xF00F, 0x8004⟩,
   ⟨0xF00F, 0x8005⟩, ⟨0xF00F, 0x8006⟩, ⟨0xF00F, 0x8007⟩, ⟨0xF00F, 0x800E⟩, ⟨0xF00F, 0x9000⟩]

/-- R66, the rows of format XS, in the table's order. -/
def rowsXS : List OpRow :=
  [⟨0xF0FF, 0xE09E⟩, ⟨0xF0FF, 0xE0A1⟩, ⟨0xF0FF, 0xF007⟩, ⟨0xF0FF, 0xF00A⟩, ⟨0xF0FF, 0xF015⟩, ⟨0xF0FF, 0xF018⟩,
   ⟨0xF0FF, 0xF01E⟩, ⟨0xF0FF, 0xF029⟩, ⟨0xF0FF, 0xF033⟩, ⟨0xF0FF, 0xF055⟩, ⟨0xF0FF, 0xF065⟩]

/-- The 35 rows of R66, grouped by mask. -/
def opcodeMap : List OpRow := rowsZ ++ rowsWide ++ rowsXY ++ rowsXS

/-- `w` is a word of this row. -/
def OpRow.takes (row : OpRow) (w : Word) : Bool := w &&& row.mask == row.pattern

/-- CHECK: the word is one of the 35 instructions, read off the masks of R66 (independently of `decode`). -/
def legalWord (w : Word) : Bool := opcodeMap.any (·.takes w)

/-- The row of R66 each instruction belongs to. -/
def Instr.row : Instr → OpRow
  | .halt => ⟨0xFFFF, 0x0000⟩
  | .clearScreen => ⟨0xFFFF, 0x00E0⟩
  | .ret => ⟨0xFFFF, 0x00EE⟩
  | .jump _ => ⟨0xF000, 0x1000⟩
  | .call _ => ⟨0xF000, 0x2000⟩
  | .skipEqImm _ _ => ⟨0xF000, 0x3000⟩
  | .skipNeImm _ _ => ⟨0xF000, 0x4000⟩
  | .skipEqReg _ _ => ⟨0xF00F, 0x5000⟩
  | .loadImm _ _ => ⟨0xF000, 0x6000⟩
  | .addImm _ _ => ⟨0xF000, 0x7000⟩
  | .move _ _ => ⟨0xF00F, 0x8000⟩
  | .or _ _ => ⟨0xF00F, 0x8001⟩
  | .and _ _ => ⟨0xF00F, 0x8002⟩
  | .xor _ _ => ⟨0xF00F, 0x8003⟩
  | .add _ _ => ⟨0xF00F, 0x8004⟩
  | .sub _ _ => ⟨0xF00F, 0x8005⟩
  | .shiftRight _ _ => ⟨0xF00F, 0x8006⟩
  | .subN _ _ => ⟨0xF00F, 0x8007⟩
  | .shiftLeft _ _ => ⟨0xF00F, 0x800E⟩
  | .skipNeReg _ _ => ⟨0xF00F, 0x9000⟩
  | .loadI _ => ⟨0xF000, 0xA000⟩
  | .jumpOffset _ => ⟨0xF000, 0xB000⟩
  | .randomAnd _ _ => ⟨0xF000, 0xC000⟩
  | .draw _ _ _ => ⟨0xF000, 0xD000⟩
  | .skipKeyPressed _ => ⟨0xF0FF, 0xE09E⟩
  | .skipKeyNotPressed _ => ⟨0xF0FF, 0xE0A1⟩
  | .readDelay _ => ⟨0xF0FF, 0xF007⟩
  | .waitForKeyPress _ => ⟨0xF0FF, 0xF00A⟩
  | .setDelay _ => ⟨0xF0FF, 0xF015⟩
  | .setSound _ => ⟨0xF0FF, 0xF018⟩
  | .addI _ => ⟨0xF0FF, 0xF01E⟩
  | .setIToFontDigit _ => ⟨0xF0FF, 0xF029⟩
  | .binaryCodeI _ => ⟨0xF0FF, 0xF033⟩
  | .copyRegistersToI _ => ⟨0xF0FF, 0xF055⟩
  | .copyIToRegisters _ => ⟨0xF0FF, 0xF065⟩

/-- CHECK (R6): the font has 80 bytes. -/
def Config.fontSizeOk (cfg : Config) : Bool := cfg.fontData.length == 80

/-- CHECK (R6): the font lies below the program area, `FONT_BASE + 80 <= 0x200`. -/
def Config.fontPlaceOk (cfg : Config) : Bool := decide (cfg.fontBase + 80 ≤ 0x200)

/-- The parameters are within their legal ranges (R6). -/
def Config.wf (cfg : Config) : Bool := cfg.fontSizeOk && cfg.fontPlaceOk

/-- CHECK (R181): an image has at most `4096 - 0x200` = 3584 bytes. -/
def imageFits (image : List Byte) : Bool := decide (image.length ≤ 4096 - 0x200)

end Sys2Proof
end

