-- ==== Sys2Proof/Machine/Ops.lean ====
section
/-! DEFINITION. The named operations over memory, registers, the call stack and the run state, and taking a fault. -/

namespace Sys2Proof.Machine

/-! ## Memory (spec/20_memory.md) -/

/-- What a cell holds after `Init` where no image byte lies: the font byte, else zero (R32, R41). -/
def resetByte (cfg : Config) (a : Nat) : Byte :=
  if cfg.fontBase ≤ a ∧ a < cfg.fontBase + 80 then cfg.fontData.getD (a - cfg.fontBase) 0 else 0

/-- The listed byte of an address. -/
def Memory.find : List Host.Cell → Nat → Option Byte
  | [], _ => none
  | c :: rest, a => if c.1 = a then some c.2 else Memory.find rest a

/-- The list without the entry of an address. -/
def Memory.remove : List Host.Cell → Nat → List Host.Cell
  | [], _ => []
  | c :: rest, a => if c.1 = a then Memory.remove rest a else c :: Memory.remove rest a

/-- The list with an address bound to a byte, its place kept by rising address. -/
def Memory.put : List Host.Cell → Nat → Byte → List Host.Cell
  | [], a, b => [(a, b)]
  | c :: rest, a, b =>
    if c.1 = a then (a, b) :: rest
    else if a < c.1 then (a, b) :: c :: rest
    else c :: Memory.put rest a b

/-- `mem[a]`: the listed byte, else the reset contents. -/
def Memory.get (cfg : Config) (m : Memory) (a : Nat) : Byte := (Memory.find m a).getD (resetByte cfg a)

/-- `mem[a] <- b`. Writing the reset contents removes the entry, so equal memories are equal lists. -/
def Memory.set (cfg : Config) (m : Memory) (a : Nat) (b : Byte) : Memory :=
  if b = resetByte cfg a then Memory.remove m a else Memory.put m a b

/-- The canonical form: addresses strictly rising and below 4096, no entry equal to the reset contents. -/
abbrev Memory.wf (cfg : Config) (m : Memory) : Prop :=
  m.Pairwise (fun c d => c.1 < d.1) ∧ ∀ c ∈ m, c.1 < 4096 ∧ c.2 ≠ resetByte cfg c.1

/-- R42: `MemRead(a, 1)`; `none` is a `MemoryBoundsError` at `a`. -/
def State.readByte (s : State) (a : Nat) : Option Byte := if a < 4096 then some (Memory.get s.cfg s.mem a) else none

/-- R42: `MemWrite(a, 1, b)`; `none` is a `MemoryBoundsError` at `a`. -/
def State.writeByte (s : State) (a : Nat) (b : Byte) : Option State :=
  if a < 4096 then some { s with mem := Memory.set s.cfg s.mem a b } else none

/-- `count` reads from `a` upwards (R56): the bytes read before the first read that faults, and the address of that one
if there is one. -/
def State.readBytes (s : State) : (a count : Nat) → List Byte × Option Nat
  | _, 0 => ([], none)
  | a, count + 1 =>
    match s.readByte a with
    | none => ([], some a)
    | some b =>
      let more := s.readBytes (a + 1) count
      (b :: more.1, more.2)

/-- Writes from `a` upwards (R56): the state after the writes before the first one that faults, and the address of that
one if there is one. -/
def State.writeBytes : (s : State) → (a : Nat) → List Byte → State × Option Nat
  | s, _, [] => (s, none)
  | s, a, b :: bs =>
    match s.writeByte a b with
    | none => (s, some a)
    | some s' => State.writeBytes s' (a + 1) bs

/-! ## Registers (spec/10_state.md) -/

/-- `V[r]` (R8, R10). -/
def State.reg (s : State) (r : Reg) : Byte := s.v[r.val]

/-- `V[r] <- b` (R8, R10): no register is hard-wired. -/
def State.setReg (s : State) (r : Reg) (b : Byte) : State := { s with v := s.v.set r.val b }

/-- `V[i] <- bytes[i]` for every index `i` the list has; the registers above keep their values (R145). -/
def State.loadRegs (s : State) (bytes : List Byte) : State :=
  { s with v := Vector.ofFn fun r : Fin 16 => bytes.getD r.val (s.reg r) }

/-! ## The call stack (spec/10_state.md R17, R18) -/

/-- R18: the derived stack pointer. -/
def State.sp (s : State) : Nat := s.stack.length

/-- `STACK_DEPTH` is finite and the stack holds that many (R17). -/
def State.stackFull (s : State) : Bool :=
  match s.cfg.stackDepth with
  | none => false
  | some d => decide (d ≤ s.stack.length)

/-- R17: `Push(a)`; `none` is a `StackOverflow`. -/
def State.push (s : State) (a : Word) : Option State :=
  if s.stackFull then none else some { s with stack := a :: s.stack }

/-- R17: `Pop()`; `none` is a `StackUnderflow`. -/
def State.pop (s : State) : Option (Word × State) :=
  match s.stack with
  | [] => none
  | a :: rest => some (a, { s with stack := rest })

/-! ## Faults (spec/60_exceptions.md) -/

/-- R155: `raise F(info)` for the instruction fetched from `at`. The run state becomes `FAULTED` with the record, and
nothing else changes: there is no handler, so no `pc` is saved or redirected. There is no return from it (R156); the only
way on is `State.initWith`. -/
def State.raise (s : State) (at' : Word) (cause : FaultCause) : State :=
  { s with mode := .faulted { cause := cause, faultPc := at' } }

/-- `raise` in the execute phase, where `pc` is already two past the instruction (R13, R81; log entry 9). -/
def State.raiseHere (s : State) (cause : FaultCause) : State := s.raise (s.pc - 2) cause

/-- The end of an instruction that accessed memory: `MemoryBoundsError` at the address that faulted, if one did; what was
done before it stays done (R56, R152). -/
def State.endAccess (s : State) (faulted : Option Nat) : State :=
  match faulted with
  | none => s
  | some a => s.raiseHere (.memoryBoundsError a)

/-- R180, R181: `Init(image)`. A fresh machine with the same parameters and the image at `0x200`, or `LoadTooLarge`. The
pending host operations and the count of free draws, which are not the machine's, go on. -/
def State.initWith (s : State) (image : List Byte) : Host.Outcome State Fault Refusal :=
  if imageFits image then
    .next ({ State.fresh s.cfg with host := s.host, draws := s.draws }.writeBytes 0x200 image).1
  else .fault .loadTooLarge

/-! ## The timer tick (spec/10_state.md R28) -/

/-- A timer one tick later: it saturates at zero (R16). -/
def tickDown (t : Byte) : Byte := if t = 0 then 0 else t - 1

/-- R28: `Tick()`; no effect in `FAULTED`. -/
def State.tick (s : State) : State :=
  match s.mode with
  | .faulted _ => s
  | _ => { s with dt := tickDown s.dt, st := tickDown s.st }

/-! ## What the host sees (spec/10_state.md R27, R31) -/

/-- R27: `continue`, true in `RUNNING` and `WAITING(x)`. -/
def State.continues (s : State) : Bool :=
  match s.mode with
  | .running => true
  | .waiting _ => true
  | .halted => false
  | .faulted _ => false

end Sys2Proof.Machine
end

