-- ==== Sys2Proof/Machine/Operands.lean ====
section
/-! DEFINITION. The operand forms: what an instruction reads before it writes anything (spec/42_alu.md R100 (a),
spec/30_encoding.md R64, spec/20_memory.md R49, R50). -/

namespace Sys2Proof.Machine

/-- R64: the address operand `nnn`, zero-extended to 16 bits. -/
def addrOperand (nnn : Addr) : Word := nnn.setWidth 16

/-- A register operand zero-extended to 16 bits (R86, R141, R142). -/
def State.regWord (s : State) (r : Reg) : Word := (s.reg r).setWidth 16

/-- `V[0]` to `V[x]` inclusive, the register block of `Fx55` (R144). -/
def State.regBlock (s : State) (x : Reg) : List Byte := s.v.toList.take (x.val + 1)

/-- R49, R50: the effective address `I + offset`, a mathematical integer that is never reduced. -/
def State.effAddr (s : State) (offset : Nat) : Nat := s.i.toNat + offset

/-- R29: `KeyPoll()`, the keypad answer of this `Step`. -/
def State.keyPoll (s : State) : Option Key := s.key

/-- R30: `RandByte()`, the random byte of this `Step`. -/
def State.randByte (s : State) : Byte := s.rnd

/-- The value a reported key has in a register: `zext_8(c)` (R95, R133). -/
def keyByte (c : Key) : Byte := c.setWidth 8

/-- R95: the poll reports the key whose value is in `V[x]`; all 8 bits are compared. -/
def State.keyPressed (s : State) (x : Reg) : Bool :=
  match s.keyPoll with
  | none => false
  | some c => keyByte c == s.reg x

end Sys2Proof.Machine
end

