-- ==== Sys2Proof/Machine/Flags.lean ====
section
/-! DEFINITION. The flag values the ALU and draw instructions leave in `VF` (spec/10_state.md R11), and the two orders in
which an instruction writes its result and its flag (spec/42_alu.md R100 (b)). -/

namespace Sys2Proof.Machine

/-- A condition as a flag value, 1 or 0. -/
def flagOf (c : Bool) : Byte := if c then 1 else 0

/-- R107: the carry out of bit 7, from the sum in a wider integer. -/
def carryFlag (a b : Byte) : Byte := flagOf (decide (a.toNat + b.toNat > 255))

/-- R108: 1 means that no borrow occurred, the equal case included. -/
def noBorrowFlag (a b : Byte) : Byte := flagOf (decide (a.toNat ≥ b.toNat))

/-- R109: the bit a right shift moves out. -/
def lowBitFlag (a : Byte) : Byte := flagOf (a.getLsbD 0)

/-- R111: the bit a left shift moves out. -/
def highBitFlag (a : Byte) : Byte := flagOf (a.getLsbD 7)

/-- R110: `V[y] > V[x]`, strictly. -/
def reverseGreater (a b : Byte) : Bool := decide (b.toNat > a.toNat)

/-- R100 (b), ADD, SHR, SHL: the flag, then the result; with `x = 15` the result stands. -/
def State.writeFlagThenResult (s : State) (x : Reg) (flag result : Byte) : State := (s.setReg VF flag).setReg x result

/-- R100 (b), SUB, SUBN: the result, then the flag; with `x = 15` the flag stands. -/
def State.writeResultThenFlag (s : State) (x : Reg) (result flag : Byte) : State := (s.setReg x result).setReg VF flag

end Sys2Proof.Machine
end

