-- ==== Sys2Proof/Machine/Alu.lean ====
section
/-! DEFINITION. Register loads, arithmetic, logic, shifts and the random draw (spec/42_alu.md). Every operand is read from
the state as it was before the instruction (R100 (a)). -/

namespace Sys2Proof.Machine

/-- R101: `6xkk` LD. -/
def execLoadImm (x : Reg) (kk : Byte) (s : State) : Host.Outcome State Fault Refusal := .next (s.setReg x kk)

/-- R102: `7xkk` ADD, modulo 256, no flag. -/
def execAddImm (x : Reg) (kk : Byte) (s : State) : Host.Outcome State Fault Refusal := .next (s.setReg x (s.reg x + kk))

/-- R103: `8xy0` LD. -/
def execMove (x y : Reg) (s : State) : Host.Outcome State Fault Refusal := .next (s.setReg x (s.reg y))

/-- R104: `8xy1` OR, no flag. -/
def execOr (x y : Reg) (s : State) : Host.Outcome State Fault Refusal := .next (s.setReg x (s.reg x ||| s.reg y))

/-- R105: `8xy2` AND, no flag. -/
def execAnd (x y : Reg) (s : State) : Host.Outcome State Fault Refusal := .next (s.setReg x (s.reg x &&& s.reg y))

/-- R106: `8xy3` XOR, no flag. -/
def execXor (x y : Reg) (s : State) : Host.Outcome State Fault Refusal := .next (s.setReg x (s.reg x ^^^ s.reg y))

/-- R107: `8xy4` ADD. -/
def execAdd (x y : Reg) (s : State) : Host.Outcome State Fault Refusal :=
  .next (s.writeFlagThenResult x (carryFlag (s.reg x) (s.reg y)) (s.reg x + s.reg y))

/-- R108: `8xy5` SUB. -/
def execSub (x y : Reg) (s : State) : Host.Outcome State Fault Refusal :=
  .next (s.writeResultThenFlag x (s.reg x - s.reg y) (noBorrowFlag (s.reg x) (s.reg y)))

/-- R109: `8xy6` SHR; `V[y]` is not read. -/
def execShiftRight (x _y : Reg) (s : State) : Host.Outcome State Fault Refusal :=
  .next (s.writeFlagThenResult x (lowBitFlag (s.reg x)) (s.reg x >>> 1))

/-- R110: `8xy7` SUBN; on the else path `V[x]` is not written. -/
def execSubN (x y : Reg) (s : State) : Host.Outcome State Fault Refusal :=
  .next (if reverseGreater (s.reg x) (s.reg y) then s.writeResultThenFlag x (s.reg y - s.reg x) 1 else s.setReg VF 0)

/-- R111: `8xyE` SHL; `V[y]` is not read. -/
def execShiftLeft (x _y : Reg) (s : State) : Host.Outcome State Fault Refusal :=
  .next (s.writeFlagThenResult x (highBitFlag (s.reg x)) (s.reg x <<< 1))

/-- R112: `Cxkk` RND. -/
def execRandomAnd (x : Reg) (kk : Byte) (s : State) : Host.Outcome State Fault Refusal :=
  .next (s.setReg x (s.randByte &&& kk))

end Sys2Proof.Machine
end

