-- ==== Sys2Proof/Machine/Blit.lean ====
section
/-! DEFINITION. The framebuffer, the XOR-blit engine and the display instructions (spec/43_display.md R120 to R122). -/

namespace Sys2Proof.Machine

/-- `fb[c][r]` (R8, R19). -/
def Display.pixel (d : Display) (c : Fin 64) (r : Fin 32) : Bool := d[r.val][c.val]

/-- `fb[c][r] <- not fb[c][r]` (R121). -/
def Display.toggle (d : Display) (c : Fin 64) (r : Fin 32) : Display :=
  d.set r.val (d[r.val].set c.val (!Display.pixel d c r))

/-- A display with every pixel unset (R120). -/
def Display.clear : Display := Vector.replicate 32 (Vector.replicate 64 false)

/-- The pixel of a state (R8). -/
def State.pixel (s : State) (c : Fin 64) (r : Fin 32) : Bool := Display.pixel s.fb c r

/-- The flat snapshot the host reads, row by row, index `64*y + x` (R31). -/
def State.snapshot (s : State) : List Bool := s.fb.toList.flatMap Vector.toList

/-- A column number modulo 64 (R19). -/
def wrapCol (k : Nat) : Fin 64 := Fin.ofNat 64 k

/-- A row number modulo 32 (R19). -/
def wrapRow (k : Nat) : Fin 32 := Fin.ofNat 32 k

/-- One bit of `BlitRow` (R121): bit `i` from the most significant one, at column `(x0 + i) mod 64`. -/
def blitBit (x0 : Fin 64) (y0 : Fin 32) (rowByte : Byte) (acc : Display × Bool) (i : Nat) : Display × Bool :=
  if rowByte.getLsbD (7 - i) then
    let c := wrapCol (x0.val + i)
    (Display.toggle acc.1 c y0, acc.2 || Display.pixel acc.1 c y0)
  else acc

/-- R121: `BlitRow(x0, y0, rowByte)`, the framebuffer after it and whether a set pixel was unset. -/
def blitRow (d : Display) (x0 : Fin 64) (y0 : Fin 32) (rowByte : Byte) : Display × Bool :=
  [0, 1, 2, 3, 4, 5, 6, 7].foldl (blitBit x0 y0 rowByte) (d, false)

/-- The row loop of `Dxyn` (R122) over the sprite bytes read, `row` counting up from the origin row and taken modulo 32;
the collisions of all rows are gathered. -/
def blitRows (x0 : Fin 64) : (row : Nat) → List Byte → Display × Bool → Display × Bool
  | _, [], acc => acc
  | row, b :: bs, acc =>
    let one := blitRow acc.1 x0 (wrapRow row) b
    blitRows x0 (row + 1) bs (one.1, acc.2 || one.2)

/-- R120: `00E0` CLS. -/
def execClearScreen (s : State) : Host.Outcome State Fault Refusal :=
  .next { s with fb := Display.clear, frameReady := true }

/-- The origin column of a sprite, `V[x] mod 64` (R122). -/
def State.originCol (s : State) (x : Reg) : Fin 64 := wrapCol (s.reg x).toNat

/-- The origin row of a sprite, `V[y] mod 32` (R122). -/
def State.originRow (s : State) (y : Reg) : Fin 32 := wrapRow (s.reg y).toNat

/-- R122: `Dxyn` DRW. The rows read before a bounds error stay drawn (R56); `VF` is written and `FrameReady` emitted only
when every row was read. -/
def execDraw (x y : Reg) (n : Fin 16) (s : State) : Host.Outcome State Fault Refusal :=
  let sprite := s.readBytes (s.effAddr 0) n.val
  let drawn := blitRows (s.originCol x) (s.originRow y).val sprite.1 (s.fb, false)
  .next (match sprite.2 with
    | none => { s.setReg VF (flagOf drawn.2) with fb := drawn.1, frameReady := true }
    | some a => { s with fb := drawn.1 }.raiseHere (.memoryBoundsError a))

end Sys2Proof.Machine
end

