-- ==== Sys2Proof/Machine/Control.lean ====
section
/-! DEFINITION. Control transfer (spec/40_control_flow.md R82 to R86). In every meaning `pc` already holds the address of
the instruction plus 2 (R81). -/

namespace Sys2Proof.Machine

/-- R82: `0000` HALT. -/
def execHalt (s : State) : Host.Outcome State Fault Refusal := .next { s with mode := .halted }

/-- R83: `00EE` RET, `pc <- Pop()`. -/
def execRet (s : State) : Host.Outcome State Fault Refusal :=
  .next (match s.pop with
    | none => s.raiseHere .stackUnderflow
    | some (a, s') => { s' with pc := a })

/-- R84: `1nnn` JP. -/
def execJump (nnn : Addr) (s : State) : Host.Outcome State Fault Refusal := .next { s with pc := addrOperand nnn }

/-- R85: `2nnn` CALL, `Push(pc)` and then `pc <- nnn`. -/
def execCall (nnn : Addr) (s : State) : Host.Outcome State Fault Refusal :=
  .next (match s.push s.pc with
    | none => s.raiseHere .stackOverflow
    | some s' => { s' with pc := addrOperand nnn })

/-- R86: `Bnnn` JP V0, `pc <- V[0] + nnn`, at most `0x10FE`. -/
def execJumpOffset (nnn : Addr) (s : State) : Host.Outcome State Fault Refusal :=
  .next { s with pc := s.regWord 0 + addrOperand nnn }

end Sys2Proof.Machine
end

