-- ==== Sys2Proof/Machine/IndexMem.lean ====
section
/-! DEFINITION. The index register and memory transfer (spec/45_index_memory.md R140 to R145). -/

namespace Sys2Proof.Machine

/-- R140: `Annn` LD I. -/
def execLoadI (nnn : Addr) (s : State) : Host.Outcome State Fault Refusal := .next { s with i := addrOperand nnn }

/-- R141: `Fx1E` ADD I, Vx, modulo 65536, no flag. -/
def execAddI (x : Reg) (s : State) : Host.Outcome State Fault Refusal := .next { s with i := s.i + s.regWord x }

/-- R142: `Fx29` LD F, Vx, all 8 bits of `V[x]` used. -/
def execSetIToFontDigit (x : Reg) (s : State) : Host.Outcome State Fault Refusal :=
  .next { s with i := BitVec.ofNat 16 (s.cfg.fontBase + 5 * (s.reg x).toNat) }

/-- The decimal digits of a byte: hundreds, tens, ones (R143). -/
def decimalDigits (b : Byte) : List Byte :=
  [BitVec.ofNat 8 (b.toNat / 100), BitVec.ofNat 8 (b.toNat / 10 % 10), BitVec.ofNat 8 (b.toNat % 10)]

/-- R143: `Fx33` LD B, Vx. -/
def execBinaryCodeI (x : Reg) (s : State) : Host.Outcome State Fault Refusal :=
  let written := s.writeBytes (s.effAddr 0) (decimalDigits (s.reg x))
  .next (written.1.endAccess written.2)

/-- R144: `Fx55` LD [I], Vx, registers `V[0]` to `V[x]` inclusive. -/
def execCopyRegistersToI (x : Reg) (s : State) : Host.Outcome State Fault Refusal :=
  let written := s.writeBytes (s.effAddr 0) (s.regBlock x)
  .next (written.1.endAccess written.2)

/-- R145: `Fx65` LD Vx, [I], registers `V[0]` to `V[x]` inclusive. -/
def execCopyIToRegisters (x : Reg) (s : State) : Host.Outcome State Fault Refusal :=
  let read := s.readBytes (s.effAddr 0) (x.val + 1)
  .next ((s.loadRegs read.1).endAccess read.2)

end Sys2Proof.Machine
end

