-- ==== Sys2Proof/Machine/Skips.lean ====
section
/-! DEFINITION. The conditional skips (spec/41_skips.md R90 to R96). -/

namespace Sys2Proof.Machine

/-- R90: `if cond then pc <- pc + 2`. -/
def State.skipIf (s : State) (cond : Bool) : State := if cond then { s with pc := s.pc + 2 } else s

/-- R91: `3xkk` SE. -/
def execSkipEqImm (x : Reg) (kk : Byte) (s : State) : Host.Outcome State Fault Refusal :=
  .next (s.skipIf (s.reg x == kk))

/-- R92: `4xkk` SNE. -/
def execSkipNeImm (x : Reg) (kk : Byte) (s : State) : Host.Outcome State Fault Refusal :=
  .next (s.skipIf (s.reg x != kk))

/-- R93: `5xy0` SE. -/
def execSkipEqReg (x y : Reg) (s : State) : Host.Outcome State Fault Refusal :=
  .next (s.skipIf (s.reg x == s.reg y))

/-- R94: `9xy0` SNE. -/
def execSkipNeReg (x y : Reg) (s : State) : Host.Outcome State Fault Refusal :=
  .next (s.skipIf (s.reg x != s.reg y))

/-- R95: `Ex9E` SKP. -/
def execSkipKeyPressed (x : Reg) (s : State) : Host.Outcome State Fault Refusal := .next (s.skipIf (s.keyPressed x))

/-- R96: `ExA1` SKNP, the exact negation of R95's condition. -/
def execSkipKeyNotPressed (x : Reg) (s : State) : Host.Outcome State Fault Refusal := .next (s.skipIf (!s.keyPressed x))

end Sys2Proof.Machine
end

