-- ==== Sys2Proof/Machine/TimersKeys.lean ====
section
/-! DEFINITION. Timer access and the key wait (spec/44_timers_keys.md R130 to R134). -/

namespace Sys2Proof.Machine

/-- R130: `Fx07` LD Vx, DT. -/
def execReadDelay (x : Reg) (s : State) : Host.Outcome State Fault Refusal := .next (s.setReg x s.dt)

/-- R131: `Fx15` LD DT, Vx. -/
def execSetDelay (x : Reg) (s : State) : Host.Outcome State Fault Refusal := .next { s with dt := s.reg x }

/-- R132: `Fx18` LD ST, Vx. -/
def execSetSound (x : Reg) (s : State) : Host.Outcome State Fault Refusal := .next { s with st := s.reg x }

/-- R133: `Fx0A` LD Vx, K: complete with a reported key, else wait for one. -/
def execWaitForKeyPress (x : Reg) (s : State) : Host.Outcome State Fault Refusal :=
  .next (match s.keyPoll with
    | some c => s.setReg x (keyByte c)
    | none => { s with mode := .waiting x })

/-- R134: a `Step` taken in `WAITING(x)`: one poll, no fetch. -/
def State.pollWhileWaiting (s : State) (x : Reg) : State :=
  match s.keyPoll with
  | some c => { s.setReg x (keyByte c) with mode := .running }
  | none => s

end Sys2Proof.Machine
end

