-- ==== Sys2Proof/Machine/Cycle.lean ====
section
/-! DEFINITION. The cycle driver (spec/40_control_flow.md R80, R81) and the host's operations (spec/10_state.md R25 to
R28). -/

namespace Sys2Proof.Machine

/-- R81: `Fetch()`, the word at `pc` without the advance: the byte at `pc` first, then the byte at `pc + 1`. A fault
answers the offending address. -/
def State.fetchWord (s : State) : Except Nat Word :=
  match s.readByte s.pc.toNat with
  | none => .error s.pc.toNat
  | some hi =>
    match s.readByte (s.pc.toNat + 1) with
    | none => .error (s.pc.toNat + 1)
    | some lo => .ok (wordOfBytes hi lo)

/-- R81: `pc <- pc + 2`, once both bytes were read. -/
def State.advance (s : State) : State := { s with pc := s.pc + 2 }

/-- R80, `RUNNING`: fetch, decode, execute. A fault in fetch leaves `pc` alone; one in decode finds it advanced (R151,
R152). -/
def State.cycle (s : State) : Host.Outcome State Fault Refusal :=
  match s.fetchWord with
  | .error a => .next (s.raise s.pc (.memoryBoundsError a))
  | .ok w =>
    match decode w with
    | .error _ => .next (s.advance.raise s.pc (.decodeError w))
    | .ok i => exec i s.advance

/-- R80: a `Step` by run state; a `Step` in `HALTED` or `FAULTED` changes nothing. -/
def State.stepByMode (s : State) : Host.Outcome State Fault Refusal :=
  match s.mode with
  | .running => s.cycle
  | .waiting x => .next (s.pollWhileWaiting x)
  | .halted => .next s
  | .faulted _ => .next s

/-- The start of a `Step(key, rnd)`: its draws are at hand, and no event is emitted yet (R24, R27). -/
def State.beginStep (s : State) (key : Option Key) (rnd : Byte) : State :=
  { s with key := key, rnd := rnd, frameReady := false }

/-- One operation of the host: the next pending one, or a `Step` with free draws when none is pending (R25; log entries
1 to 3). -/
def State.nextOperation (s : State) : Host.Outcome State Fault Refusal :=
  match s.host with
  | [] => ({ s with draws := s.draws + 1 }.beginStep (Config.freeKey s.draws) (Config.freeByte s.draws)).stepByMode
  | .step key rnd :: rest => ({ s with host := rest }.beginStep key rnd).stepByMode
  | .tick :: rest => .next { s with host := rest, frameReady := false }.tick
  | .init image :: rest => { s with host := rest }.initWith image

/-- The pending operations from the first `Step` on. -/
def fromFirstStep : List HostOp → List HostOp
  | [] => []
  | .step key rnd :: rest => .step key rnd :: rest
  | .tick :: rest => fromFirstStep rest
  | .init _ :: rest => fromFirstStep rest

/-- A word stored at `pc`, in a state whose next operation is a `Step` that fetches it (log entry 10): `pc` moves to
`0x200` only where no fetch can succeed (R81). -/
def State.placeWord (s : State) (w : Word) : State :=
  let at' : Word := if s.pc.toNat ≤ 4094 then s.pc else 0x200
  ({ s with pc := at', mode := .running, host := fromFirstStep s.host }.writeBytes at'.toNat [hiByte w, loByte w]).1

end Sys2Proof.Machine
end

