-- ==== Sys2Proof/Machine/Step.lean ====
section
/-! DEFINITION. The step function: one operation of the host. -/

namespace Sys2Proof.Machine

/-- One operation of the host on the machine (spec/10_state.md R25). -/
def step (s : State) : Host.Outcome State Fault Refusal := s.nextOperation

/-- `s` with the instruction whose bits are `w` (as spec/opcode_table.json numbers them, zero from `nbits` up) stored
where `step` fetches, so that `step` fetches and runs it. -/
def State.withFetchWord (s : State) (nbits w : Nat) : State := s.placeWord (BitVec.ofNat 16 (w % 2 ^ nbits))

end Sys2Proof.Machine
end

