-- ==== Sys2Proof/Safety.lean ====
section
/-! DEFINITION. The terms claims are stated in: what an operation may change, the invariant of every run, and which
instruction touches what (spec/10_state.md, spec/20_memory.md R49). -/

namespace Sys2Proof.Machine

/-- What an operation may write. What is not named is unchanged. -/
structure Writes where
  regs : List Reg := []
  i : Bool := false
  pc : Bool := false
  dt : Bool := false
  st : Bool := false
  stack : Bool := false
  fb : Bool := false
  mode : Bool := false
  frameReady : Bool := false
  /-- The first byte stored to. -/
  memFrom : Nat := 0
  /-- The number of bytes stored. -/
  memCount : Nat := 0

/-- From `s` to `t`, everything but what `w` names is unchanged: every other register, field and pixel, EVERY byte of
memory outside the stored range, the parameters, and the host's side. -/
def Frame (w : Writes) (s t : State) : Prop :=
  (∀ r, r ∉ w.regs → t.reg r = s.reg r) ∧
  (w.i = false → t.i = s.i) ∧
  (w.pc = false → t.pc = s.pc) ∧
  (w.dt = false → t.dt = s.dt) ∧
  (w.st = false → t.st = s.st) ∧
  (w.stack = false → t.stack = s.stack) ∧
  (w.fb = false → ∀ c r, t.pixel c r = s.pixel c r) ∧
  (w.mode = false → t.mode = s.mode) ∧
  (w.frameReady = false → t.frameReady = s.frameReady) ∧
  (∀ a, ¬(w.memFrom ≤ a ∧ a < w.memFrom + w.memCount) → t.readByte a = s.readByte a) ∧
  t.cfg = s.cfg ∧ t.host = s.host ∧ t.draws = s.draws ∧ t.key = s.key ∧ t.rnd = s.rnd

/-- The state has run into the fault `c` (R155), whatever its `fault_pc`. -/
def FaultedBy (c : FaultCause) (t : State) : Prop := ∃ f, t.mode = .faulted f ∧ f.cause = c

/-- The registers `V[0]` to `V[x]` whose byte, at `I` plus its index, lies inside memory (R144, R145). -/
def State.blockRegs (s : State) (x : Reg) : List Reg :=
  (List.finRange 16).filter fun r => decide (r ≤ x ∧ s.effAddr r.val < 4096)

/-- The bit the first `rows` rows of a sprite put on pixel `(c, r)`, false where none does (R122, R123 (b)): the pixel's
distances from the origin, with wrap-around, are its row and its bit index from the most significant one. -/
def State.spriteBit (s : State) (x y : Reg) (rows : Nat) (c : Fin 64) (r : Fin 32) : Bool :=
  let i := (r.val + 32 - (s.reg y).toNat % 32) % 32
  let j := (c.val + 64 - (s.reg x).toNat % 64) % 64
  decide (i < rows) && decide (j < 8) &&
    (match s.readByte (s.effAddr i) with
      | some b => b.getLsbD (7 - j)
      | none => false)

end Sys2Proof.Machine

namespace Sys2Proof

/-- The registers an instruction names as its destination (R10): the flag writes of R11 are not among them. -/
def Instr.dest : Instr → List Reg
  | .loadImm x _ => [x]
  | .addImm x _ => [x]
  | .move x _ => [x]
  | .or x _ => [x]
  | .and x _ => [x]
  | .xor x _ => [x]
  | .add x _ => [x]
  | .sub x _ => [x]
  | .shiftRight x _ => [x]
  | .subN x _ => [x]
  | .shiftLeft x _ => [x]
  | .randomAnd x _ => [x]
  | .readDelay x => [x]
  | .waitForKeyPress x => [x]
  | .copyIToRegisters x => (List.finRange 16).filter fun r => decide (r ≤ x)
  | .halt | .clearScreen | .ret | .jump _ | .call _ | .skipEqImm _ _ | .skipNeImm _ _ | .skipEqReg _ _
  | .skipNeReg _ _ | .loadI _ | .jumpOffset _ | .draw _ _ _ | .skipKeyPressed _ | .skipKeyNotPressed _
  | .setDelay _ | .setSound _ | .addI _ | .setIToFontDigit _ | .binaryCodeI _ | .copyRegistersToI _ => []

/-- The instructions that write `VF` as a side effect: the table of R11. -/
def Instr.writesFlag : Instr → Bool
  | .add _ _ | .sub _ _ | .shiftRight _ _ | .subN _ _ | .shiftLeft _ _ | .draw _ _ _ => true
  | .halt | .clearScreen | .ret | .jump _ | .call _ | .skipEqImm _ _ | .skipNeImm _ _ | .skipEqReg _ _ | .loadImm _ _
  | .addImm _ _ | .move _ _ | .or _ _ | .and _ _ | .xor _ _ | .skipNeReg _ _ | .loadI _ | .jumpOffset _ | .randomAnd _ _
  | .skipKeyPressed _ | .skipKeyNotPressed _ | .readDelay _ | .waitForKeyPress _ | .setDelay _ | .setSound _ | .addI _
  | .setIToFontDigit _ | .binaryCodeI _ | .copyRegistersToI _ | .copyIToRegisters _ => false

/-- How many bytes an instruction stores from `I` upwards: the table of R49. -/
def Instr.storeCount : Instr → Nat
  | .binaryCodeI _ => 3
  | .copyRegistersToI x => x.val + 1
  | .halt | .clearScreen | .ret | .jump _ | .call _ | .skipEqImm _ _ | .skipNeImm _ _ | .skipEqReg _ _ | .loadImm _ _
  | .addImm _ _ | .move _ _ | .or _ _ | .and _ _ | .xor _ _ | .add _ _ | .sub _ _ | .shiftRight _ _ | .subN _ _
  | .shiftLeft _ _ | .skipNeReg _ _ | .loadI _ | .jumpOffset _ | .randomAnd _ _ | .draw _ _ _ | .skipKeyPressed _
  | .skipKeyNotPressed _ | .readDelay _ | .waitForKeyPress _ | .setDelay _ | .setSound _ | .addI _ | .setIToFontDigit _
  | .copyIToRegisters _ => 0

end Sys2Proof

namespace Sys2Proof.Machine

/-- A fault record that a run can hold (R21, R150): the word is illegal, the address does not exist, and a full stack
needs a finite `STACK_DEPTH`; `fault_pc` is an address a fetch was made from. -/
def FaultRecord.legal (cfg : Config) (f : FaultRecord) : Prop :=
  f.faultPc.toNat ≤ 0x10FE ∧
  match f.cause with
  | .decodeError w => decode w = .error (.illegalWord w)
  | .memoryBoundsError a => 4096 ≤ a
  | .stackUnderflow => True
  | .stackOverflow => cfg.stackDepth ≠ none

/-- The invariant of every run: legal parameters (R6), memory in the model's own canonical form (log entry 6), `pc` at
most `0x10FE` (derived in R13), return addresses from 2 to 4096 (derived in R17), no more of them than `STACK_DEPTH` (R17,
D22), and a legal fault record (R21). -/
structure State.Inv (s : State) : Prop where
  cfg_wf : s.cfg.wf = true
  mem_wf : Memory.wf s.cfg s.mem
  pc_le : s.pc.toNat ≤ 0x10FE
  stack_range : ∀ a ∈ s.stack, 2 ≤ a.toNat ∧ a.toNat ≤ 4096
  stack_depth : ∀ d, s.cfg.stackDepth = some d → s.stack.length ≤ d
  fault_legal : ∀ f, s.mode = .faulted f → f.legal s.cfg

/-- The next operation is not an `Init`. -/
def State.noInit (s : State) : Prop := ∀ image rest, s.host ≠ .init image :: rest

end Sys2Proof.Machine
end

