-- ==== Sys2Proof/Certificates/Slice0/Obligations.lean ====
section
/-! DEFINITION. The statements for the provers, from the numbered rules of spec/. A statement whose docstring names a
decision (D), a general-knowledge passage (G) or a log entry rests on that choice and not on the source. -/

open Sys2Proof Sys2Proof.Machine

/-! ## Decoding -/

/-- R66, R65, R46: decoding the word, or the bytes, of any instruction gives that instruction back. -/
def Obligations.DecodeEncodeRoundTrip : Prop :=
  ∀ i : Instr, decode (encode i) = .ok i ∧ ∀ rest, decodeBytes (encodeBytes i ++ rest) = .ok (i, rest)

/-- R66: `w` is an instruction exactly when it has the mask and pattern of a row, and then it is the word of that one
instruction, in that row. R68: every other word is a `DecodeError(w)`. -/
def Obligations.DecodeAgreesWithOpcodeMap : Prop :=
  ∀ w : Word,
    (legalWord w = true ↔ ∃ i, decode w = .ok i) ∧
    (∀ i, decode w = .ok i → encode i = w ∧ i.row ∈ opcodeMap ∧ i.row.takes w = true) ∧
    (legalWord w = false → decode w = .error (.illegalWord w))

/-- R66: the rows are disjoint: no word belongs to two of them. -/
def Obligations.OpcodeRowsAreDisjoint : Prop :=
  opcodeMap.Pairwise fun row row' => ∀ w : Word, ¬(row.takes w = true ∧ row'.takes w = true)

/-- R66, R68: words written out from the spec's encodings, one or more for each family, decode to what they stand for. -/
def Obligations.SampleWordsDecode : Prop :=
  decode 0x0000 = .ok .halt ∧ decode 0x00E0 = .ok .clearScreen ∧ decode 0x10E0 = .ok (.jump 0x0E0) ∧
  decode 0x4A42 = .ok (.skipNeImm 0xA 0x42) ∧ decode 0x6F12 = .ok (.loadImm 0xF 0x12) ∧
  decode 0x8AB6 = .ok (.shiftRight 0xA 0xB) ∧ decode 0xBFFF = .ok (.jumpOffset 0xFFF) ∧
  decode 0xDABF = .ok (.draw 0xA 0xB 0xF) ∧ decode 0xEFA1 = .ok (.skipKeyNotPressed 0xF) ∧
  decode 0xF533 = .ok (.binaryCodeI 5) ∧ decode 0x5001 = .error (.illegalWord 0x5001)

/-! ## The step -/

/-- R80, R81, R46: in `RUNNING`, when the two bytes at `pc`, high byte first, decode to `i`, a `Step` is `exec i` with
`pc` two further, the step's draws at hand and no event emitted yet. The second clause is the model's own (log entries 1
to 3): with no operation pending the host gives a `Step` with free draws. -/
def Obligations.StepRunsDecodedInstruction : Prop :=
  ∀ (s : State) (i : Instr) (hi lo : Byte), s.mode = .running →
    s.readByte s.pc.toNat = some hi → s.readByte (s.pc.toNat + 1) = some lo → decode (wordOfBytes hi lo) = .ok i →
    (∀ key rnd rest, s.host = .step key rnd :: rest →
      step s = exec i { s with host := rest, key := key, rnd := rnd, frameReady := false, pc := s.pc + 2 }) ∧
    (s.host = [] →
      step s = exec i { s with
        draws := s.draws + 1, key := Config.freeKey s.draws, rnd := Config.freeByte s.draws, frameReady := false,
        pc := s.pc + 2 })

/-- R81, R152: a fetch at 4095 faults at 4096, one at 4096 or more faults at `pc`; `pc` stays, and `fault_pc` is `pc`
(D6, D20). -/
def Obligations.FetchOutOfBoundsFaults : Prop :=
  ∀ (s : State) key rnd rest, s.mode = .running → s.host = .step key rnd :: rest → 4095 ≤ s.pc.toNat →
    ∃ t, step s = .next t ∧
      t.mode = .faulted { cause := .memoryBoundsError (max s.pc.toNat 4096), faultPc := s.pc } ∧
      t.continues = false ∧
      Frame { mode := true } { s with host := rest, key := key, rnd := rnd, frameReady := false } t

/-- R151, R68: a fetched word that is no instruction raises `DecodeError` with the word and the address it was fetched
from; `pc` is the address plus 2 and nothing else changes (D20, D21). -/
def Obligations.IllegalWordFaults : Prop :=
  ∀ (s : State) key rnd rest hi lo, s.mode = .running → s.host = .step key rnd :: rest →
    s.readByte s.pc.toNat = some hi → s.readByte (s.pc.toNat + 1) = some lo → legalWord (wordOfBytes hi lo) = false →
    ∃ t, step s = .next t ∧
      t.mode = .faulted { cause := .decodeError (wordOfBytes hi lo), faultPc := s.pc } ∧
      t.pc = s.pc + 2 ∧ t.continues = false ∧
      Frame { mode := true, pc := true } { s with host := rest, key := key, rnd := rnd, frameReady := false } t

/-- R155, R21: whichever phase raised it, the record of a fault holds the address the instruction was fetched from
(D20). -/
def Obligations.FaultRecordHoldsFetchAddress : Prop :=
  ∀ (s t : State) f, s.mode = .running → s.noInit → step s = .next t → t.mode = .faulted f → f.faultPc = s.pc

/-- R156: in `FAULTED`, `Step` and `Tick` change nothing; only an `Init` goes on. -/
def Obligations.FaultedIsAbsorbing : Prop :=
  ∀ (s : State) f, s.mode = .faulted f → s.noInit →
    ∃ t, step s = .next t ∧ t.mode = .faulted f ∧ t.v = s.v ∧ t.i = s.i ∧ t.pc = s.pc ∧ t.dt = s.dt ∧ t.st = s.st ∧
      t.stack = s.stack ∧ t.mem = s.mem ∧ t.fb = s.fb ∧ t.cfg = s.cfg ∧ t.frameReady = false ∧ t.continues = false

/-- R80, R82: a `Step` in `HALTED` changes nothing and reports "do not continue" (D8, D30). -/
def Obligations.HaltedStepChangesNothing : Prop :=
  ∀ (s : State) key rnd rest, s.mode = .halted → s.host = .step key rnd :: rest →
    step s = .next { s with host := rest, key := key, rnd := rnd, frameReady := false } ∧ s.continues = false

/-- R28: `Tick` decrements each timer that is above zero, and changes nothing else; it is enabled in `RUNNING`,
`WAITING(x)` and `HALTED`, and has no effect in `FAULTED` (D24). -/
def Obligations.TickCountsBothTimersDown : Prop :=
  ∀ (s : State) rest, s.host = .tick :: rest →
    ∃ t, step s = .next t ∧ Frame { dt := true, st := true } { s with host := rest, frameReady := false } t ∧
      ((∀ f, s.mode ≠ .faulted f) →
        t.dt.toNat = (if s.dt.toNat > 0 then s.dt.toNat - 1 else 0) ∧
        t.st.toNat = (if s.st.toNat > 0 then s.st.toNat - 1 else 0)) ∧
      (∀ f, s.mode = .faulted f → t.dt = s.dt ∧ t.st = s.st)

/-- R134: a `Step` in `WAITING(x)` polls once and fetches nothing: a reported key goes to `V[x]` and the machine runs
again, no key changes nothing; it continues either way (D14). -/
def Obligations.WaitingStepPollsOnce : Prop :=
  ∀ (s : State) x key rnd rest, s.mode = .waiting x → s.host = .step key rnd :: rest →
    ∃ t, step s = .next t ∧ t.continues = true ∧
      (∀ c : Key, key = some c → t.reg x = BitVec.ofNat 8 c.toNat ∧ t.mode = .running ∧
        Frame { regs := [x], mode := true } { s with host := rest, key := key, rnd := rnd, frameReady := false } t) ∧
      (key = none → t = { s with host := rest, key := key, rnd := rnd, frameReady := false })

/-- R32, R180: what `Init` leaves: zero memory outside the font and the image, the font, the image, and the values of
R32 (D2). -/
def Obligations.InitLoadsImageIntoFreshMachine : Prop :=
  ∀ (s : State) image rest, s.host = .init image :: rest → image.length ≤ 3584 → s.cfg.wf = true →
    ∃ t, step s = .next t ∧
      (∀ r, t.reg r = 0) ∧ t.i = 0 ∧ t.pc = 0x200 ∧ t.dt = 0 ∧ t.st = 0 ∧ t.stack = [] ∧
      (∀ c r, t.pixel c r = false) ∧ t.mode = .running ∧ t.frameReady = false ∧ t.cfg = s.cfg ∧ t.host = rest ∧
      (∀ k, k < image.length → t.readByte (0x200 + k) = image[k]?) ∧
      (∀ k, k < 80 → t.readByte (s.cfg.fontBase + k) = s.cfg.fontData[k]?) ∧
      (∀ a, a < 4096 → ¬(s.cfg.fontBase ≤ a ∧ a < s.cfg.fontBase + 80) →
        ¬(0x200 ≤ a ∧ a < 0x200 + image.length) → t.readByte a = some 0)

/-- R181: an image longer than 3584 bytes is rejected with `LoadTooLarge`, in every state; one of at most 3584 bytes,
empty and odd lengths included, is accepted. -/
def Obligations.InitRejectsTooLargeImage : Prop :=
  ∀ (s : State) image rest, s.host = .init image :: rest →
    (image.length > 3584 → step s = .fault .loadTooLarge) ∧ (image.length ≤ 3584 → ∃ t, step s = .next t)

/-- R80, R150: every instruction and every operation answers a next state, but for the rejected `Init`; and no operation
changes the parameters (R6, R22). -/
def Obligations.OnlyRejectedInitStops : Prop :=
  (∀ i s, ∃ t, exec i s = .next t) ∧
  ∀ s, (∃ t, step s = .next t ∧ t.cfg = s.cfg) ∨
    ∃ image rest, s.host = .init image :: rest ∧ image.length > 3584 ∧ step s = .fault .loadTooLarge

/-- The invariant of every run (`State.Inv`) is kept by every operation, from every state that meets it: legal parameters
(R6), the bounds on `pc` and on return addresses that R13 and R17 derive, no more return addresses than a finite
`STACK_DEPTH` (D22), and a legal fault record (R21; D20). Its clause that memory is in canonical form is the model's own
(log entry 6, DESIGN CHOICE). -/
def Obligations.StepKeepsInvariant : Prop := ∀ s t : State, s.Inv → step s = .next t → t.Inv

/-- The invariant holds at reset, with the default parameters of R6 (D3, D4, D22; log entry 5). Its clause that memory is
in canonical form is the model's own (log entry 6, DESIGN CHOICE). -/
def Obligations.ResetMeetsInvariant : Prop := State.reset.Inv

/-- R32 with the default parameters of R6 and R45: what the machine holds right after reset (D2, D3, D4). -/
def Obligations.ResetValues : Prop :=
  (∀ r, State.reset.reg r = 0) ∧ State.reset.i = 0 ∧ State.reset.pc = 0x200 ∧ State.reset.dt = 0 ∧
  State.reset.st = 0 ∧ State.reset.stack = [] ∧ State.reset.sp = 0 ∧ State.reset.mode = .running ∧
  (∀ c r, State.reset.pixel c r = false) ∧
  (∀ a, a < 4096 → ¬(0x050 ≤ a ∧ a < 0x0A0) → State.reset.readByte a = some 0) ∧
  (State.reset.readBytes 0x050 5 = ([0xF0, 0x90, 0x90, 0x90, 0xF0], none)) ∧
  (State.reset.readBytes 0x09B 5 = ([0xF0, 0x80, 0xF0, 0x80, 0x80], none))

/-! ## Whole-machine rules -/

/-- R16: the timers change only by `Fx15`, `Fx18` and `Tick`: a `Step` that runs another instruction, waits, or runs
none leaves them alone. (An `Init` makes a new machine.) -/
def Obligations.TimersChangeOnlyByTheirWriters : Prop :=
  (∀ i s t, exec i s = .next t →
    ((∀ x, i ≠ .setDelay x) → t.dt = s.dt) ∧ ((∀ x, i ≠ .setSound x) → t.st = s.st)) ∧
  ∀ s t, step s = .next t → s.noInit → (∀ rest, s.host ≠ .tick :: rest) →
    (t.dt ≠ s.dt → ∃ w x, s.fetchWord = .ok w ∧ decode w = .ok (.setDelay x)) ∧
    (t.st ≠ s.st → ∃ w x, s.fetchWord = .ok w ∧ decode w = .ok (.setSound x))

/-- R10, R11: an instruction changes no register but its destination and, for the six instructions of R11's table,
`VF`. -/
def Obligations.RegistersChangeOnlyWhereNamed : Prop :=
  ∀ i s t r, exec i s = .next t → r ∉ i.dest → ¬(i.writesFlag = true ∧ r = VF) → t.reg r = s.reg r

/-- R11: the value each of the six flag writers leaves in `VF` when `VF` is not also its destination. -/
def Obligations.FlagWritersSetVF : Prop :=
  ∀ (s : State) (x y : Reg), x ≠ VF →
    (∀ t, exec (.add x y) s = .next t → t.reg VF = if (s.reg x).toNat + (s.reg y).toNat > 255 then 1 else 0) ∧
    (∀ t, exec (.sub x y) s = .next t → t.reg VF = if (s.reg x).toNat ≥ (s.reg y).toNat then 1 else 0) ∧
    (∀ t, exec (.shiftRight x y) s = .next t → (t.reg VF).toNat = (s.reg x).toNat % 2) ∧
    (∀ t, exec (.subN x y) s = .next t → t.reg VF = if (s.reg y).toNat > (s.reg x).toNat then 1 else 0) ∧
    (∀ t, exec (.shiftLeft x y) s = .next t → (t.reg VF).toNat = (s.reg x).toNat / 128) ∧
    (∀ n t, exec (.draw x y n) s = .next t → t.mode = s.mode → (∀ f, s.mode ≠ .faulted f) →
      ((∃ c r, s.pixel c r = true ∧ t.pixel c r = false) → t.reg VF = 1) ∧
      ((∀ c r, s.pixel c r = true → t.pixel c r = true) → t.reg VF = 0))

/-- R17, R19, R55: only `CALL` and `RET` change the call stack, and only `CLS` and `DRW` change a pixel. R24: no other
instruction emits `FrameReady` (D23; log entries 8 and 38). -/
def Obligations.StackAndDisplayHaveTheirOwnInstructions : Prop :=
  ∀ i s t, exec i s = .next t →
    ((∀ nnn, i ≠ .call nnn) → i ≠ .ret → t.stack = s.stack) ∧
    (i ≠ .clearScreen → (∀ x y n, i ≠ .draw x y n) →
      (∀ c r, t.pixel c r = s.pixel c r) ∧ t.frameReady = s.frameReady)

/-- R49, R43: an instruction stores nowhere but at `I` and the bytes after it that R49 gives it; in particular only
`Fx33` and `Fx55` store at all. -/
def Obligations.MemoryChangesOnlyAtStoredBytes : Prop :=
  ∀ i s t, exec i s = .next t →
    ∀ a, ¬(s.effAddr 0 ≤ a ∧ a < s.effAddr 0 + i.storeCount) → t.readByte a = s.readByte a

/-- R49, R12: `I` is changed by `Annn`, `Fx1E` and `Fx29` only (D15). -/
def Obligations.IndexChangesOnlyByItsWriters : Prop :=
  ∀ i s t, exec i s = .next t → (∀ nnn, i ≠ .loadI nnn) → (∀ x, i ≠ .addI x) → (∀ x, i ≠ .setIToFontDigit x) →
    t.i = s.i

/-- R55: a program reads no pixel as data: what the framebuffer holds has no influence on an instruction but for the
framebuffer itself and, in a `Dxyn`, `VF`. -/
def Obligations.PixelsReachProgramOnlyThroughVF : Prop :=
  ∀ i s t (d : Display), exec i s = .next t →
    ∃ t', exec i { s with fb := d } = .next t' ∧ { t' with fb := t.fb, v := t.v } = t ∧
      ∀ r, (r ≠ VF ∨ ∀ x y n, i ≠ .draw x y n) → t'.reg r = t.reg r

/-- R29, R30: the keypad answer is sampled by `Ex9E`, `ExA1` and `Fx0A` alone, the random byte by `Cxkk` alone: on every
other instruction they have no influence. -/
def Obligations.DrawsAreSampledOnlyByTheirInstructions : Prop :=
  ∀ i s t, exec i s = .next t →
    (∀ k : Option Key, (∀ x, i ≠ .skipKeyPressed x) → (∀ x, i ≠ .skipKeyNotPressed x) →
      (∀ x, i ≠ .waitForKeyPress x) → exec i { s with key := k } = .next { t with key := k }) ∧
    (∀ b : Byte, (∀ x kk, i ≠ .randomAnd x kk) → exec i { s with rnd := b } = .next { t with rnd := b })

/-- R157: within execute no instruction raises two kinds of fault, and which one it can raise. -/
def Obligations.EachInstructionRaisesOneKindOfFault : Prop :=
  ∀ i s t f, exec i s = .next t → (∀ g, s.mode ≠ .faulted g) → t.mode = .faulted f →
    (i = .ret ∧ f.cause = .stackUnderflow) ∨
    ((∃ nnn, i = .call nnn) ∧ f.cause = .stackOverflow) ∨
    (((∃ x y n, i = .draw x y n) ∨ (∃ x, i = .binaryCodeI x) ∨ (∃ x, i = .copyRegistersToI x) ∨
        ∃ x, i = .copyIToRegisters x) ∧
      f.cause = .memoryBoundsError (max (s.effAddr 0) 4096))

/-- R52: a store is seen by the very next fetch: after an `Fx55` of two or more registers to the address of the next
instruction, that instruction is the word of `V[0]` and `V[1]`. -/
def Obligations.StoreIsSeenByNextFetch : Prop :=
  ∀ (s : State) (x : Reg), 1 ≤ x.val → s.i = s.pc → s.i.toNat + x.val < 4096 →
    ∃ t, exec (.copyRegistersToI x) s = .next t ∧ t.fetchWord = .ok (wordOfBytes (s.reg 0) (s.reg 1))

/-! ## Control transfer and skips -/

/-- R82: `0000` changes the run state to `HALTED` and nothing else; `pc` keeps its advanced value (D8). -/
def Obligations.HaltEndsTheRun : Prop :=
  ∀ s : State, ∃ t, exec .halt s = .next t ∧ t.mode = .halted ∧ t.continues = false ∧ Frame { mode := true } s t

/-- R83: `RET` pops the top of the stack into `pc`; with an empty stack it raises `StackUnderflow`, `pc` staying at the
advanced value and the stack staying empty. -/
def Obligations.RetPopsIntoPc : Prop :=
  ∀ s : State,
    (∀ a rest, s.stack = a :: rest →
      ∃ t, exec .ret s = .next t ∧ t.pc = a ∧ t.stack = rest ∧ Frame { pc := true, stack := true } s t) ∧
    (s.stack = [] →
      ∃ t, exec .ret s = .next t ∧ FaultedBy .stackUnderflow t ∧ Frame { mode := true } s t)

/-- R84: `JP nnn` sets `pc` to the zero-extended address. -/
def Obligations.JumpSetsPc : Prop :=
  ∀ (s : State) (nnn : Addr), ∃ t, exec (.jump nnn) s = .next t ∧ t.pc.toNat = nnn.toNat ∧ Frame { pc := true } s t

/-- R85, R17: `CALL nnn` pushes `pc` and then sets it; only with a finite `STACK_DEPTH` that is reached does it raise
`StackOverflow` instead, before any change (R154, D22). -/
def Obligations.CallPushesPc : Prop :=
  ∀ (s : State) (nnn : Addr),
    ((∀ d, s.cfg.stackDepth = some d → s.stack.length < d) →
      ∃ t, exec (.call nnn) s = .next t ∧ t.pc.toNat = nnn.toNat ∧ t.stack = s.pc :: s.stack ∧
        Frame { pc := true, stack := true } s t) ∧
    (∀ d, s.cfg.stackDepth = some d → d ≤ s.stack.length →
      ∃ t, exec (.call nnn) s = .next t ∧ FaultedBy .stackOverflow t ∧ Frame { mode := true } s t)

/-- R86: `JP V0, nnn` sets `pc` to `V[0] + nnn`, not reduced. -/
def Obligations.JumpOffsetAddsV0 : Prop :=
  ∀ (s : State) (nnn : Addr),
    ∃ t, exec (.jumpOffset nnn) s = .next t ∧ t.pc.toNat = (s.reg 0).toNat + nnn.toNat ∧ Frame { pc := true } s t

/-- R90 to R94: the four register skips advance `pc` by 2 more when their condition holds, and change nothing else
(conditions: G1). -/
def Obligations.RegisterSkipsAdvancePc : Prop :=
  ∀ (s : State) (x y : Reg) (kk : Byte),
    (∃ t, exec (.skipEqImm x kk) s = .next t ∧ t.pc = (if s.reg x = kk then s.pc + 2 else s.pc) ∧
      Frame { pc := true } s t) ∧
    (∃ t, exec (.skipNeImm x kk) s = .next t ∧ t.pc = (if s.reg x = kk then s.pc else s.pc + 2) ∧
      Frame { pc := true } s t) ∧
    (∃ t, exec (.skipEqReg x y) s = .next t ∧ t.pc = (if s.reg x = s.reg y then s.pc + 2 else s.pc) ∧
      Frame { pc := true } s t) ∧
    (∃ t, exec (.skipNeReg x y) s = .next t ∧ t.pc = (if s.reg x = s.reg y then s.pc else s.pc + 2) ∧
      Frame { pc := true } s t)

/-- R95, R96: `SKP` skips exactly when the poll reports the key whose value is in `V[x]`, all 8 bits compared; `SKNP`
exactly when it does not (D13, G7). -/
def Obligations.KeySkipsCompareWholeRegister : Prop :=
  ∀ (s : State) (x : Reg),
    (∃ t, exec (.skipKeyPressed x) s = .next t ∧ Frame { pc := true } s t ∧
      ((∃ c : Key, s.key = some c ∧ c.toNat = (s.reg x).toNat) → t.pc = s.pc + 2) ∧
      ((∀ c : Key, s.key = some c → c.toNat ≠ (s.reg x).toNat) → t.pc = s.pc)) ∧
    (∃ t, exec (.skipKeyNotPressed x) s = .next t ∧ Frame { pc := true } s t ∧
      ((∃ c : Key, s.key = some c ∧ c.toNat = (s.reg x).toNat) → t.pc = s.pc) ∧
      ((∀ c : Key, s.key = some c → c.toNat ≠ (s.reg x).toNat) → t.pc = s.pc + 2))

/-! ## Register loads and the ALU -/

/-- R101: `LD Vx, kk`; `VF` is not written unless it is the destination (D12). -/
def Obligations.LoadImmSetsRegister : Prop :=
  ∀ (s : State) (x : Reg) (kk : Byte),
    ∃ t, exec (.loadImm x kk) s = .next t ∧ t.reg x = kk ∧ Frame { regs := [x] } s t

/-- R102: `ADD Vx, kk` wraps modulo 256 and records no carry (G2, D12). -/
def Obligations.AddImmWraps : Prop :=
  ∀ (s : State) (x : Reg) (kk : Byte),
    ∃ t, exec (.addImm x kk) s = .next t ∧ (t.reg x).toNat = ((s.reg x).toNat + kk.toNat) % 256 ∧
      Frame { regs := [x] } s t

/-- R103 to R106: copy, OR, AND, XOR of two registers; `VF` is not written unless it is the destination (G3, D12). -/
def Obligations.MoveAndLogicLeaveFlagAlone : Prop :=
  ∀ (s : State) (x y : Reg),
    (∃ t, exec (.move x y) s = .next t ∧ t.reg x = s.reg y ∧ Frame { regs := [x] } s t) ∧
    (∃ t, exec (.or x y) s = .next t ∧ Frame { regs := [x] } s t ∧
      ∀ k, (t.reg x).getLsbD k = ((s.reg x).getLsbD k || (s.reg y).getLsbD k)) ∧
    (∃ t, exec (.and x y) s = .next t ∧ Frame { regs := [x] } s t ∧
      ∀ k, (t.reg x).getLsbD k = ((s.reg x).getLsbD k && (s.reg y).getLsbD k)) ∧
    (∃ t, exec (.xor x y) s = .next t ∧ Frame { regs := [x] } s t ∧
      ∀ k, (t.reg x).getLsbD k = ((s.reg x).getLsbD k != (s.reg y).getLsbD k))

/-- R107: `ADD Vx, Vy`: the sum modulo 256 and the carry; with `x = 15` the sum stands (R100, D10). -/
def Obligations.AddWritesSumAndCarry : Prop :=
  ∀ (s : State) (x y : Reg),
    ∃ t, exec (.add x y) s = .next t ∧ (t.reg x).toNat = ((s.reg x).toNat + (s.reg y).toNat) % 256 ∧
      (x ≠ VF → t.reg VF = if (s.reg x).toNat + (s.reg y).toNat > 255 then 1 else 0) ∧ Frame { regs := [x, VF] } s t

/-- R108: `SUB Vx, Vy`: the difference modulo 256 and 1 for no borrow; with `x = 15` the flag stands (R100, D10). -/
def Obligations.SubWritesDifferenceAndNoBorrow : Prop :=
  ∀ (s : State) (x y : Reg),
    ∃ t, exec (.sub x y) s = .next t ∧
      (x ≠ VF → (t.reg x).toNat = ((s.reg x).toNat + 256 - (s.reg y).toNat) % 256) ∧
      t.reg VF = (if (s.reg x).toNat ≥ (s.reg y).toNat then 1 else 0) ∧ Frame { regs := [x, VF] } s t

/-- R109, R111: `SHR` and `SHL` move `V[x]` by one bit and put the bit moved out in `VF`; `V[y]` has no part in it; with
`x = 15` the result stands (R100, D10). -/
def Obligations.ShiftsMoveOneBit : Prop :=
  ∀ (s : State) (x y : Reg),
    (∃ t, exec (.shiftRight x y) s = .next t ∧ (t.reg x).toNat = (s.reg x).toNat / 2 ∧
      (x ≠ VF → (t.reg VF).toNat = (s.reg x).toNat % 2) ∧ Frame { regs := [x, VF] } s t) ∧
    (∃ t, exec (.shiftLeft x y) s = .next t ∧ (t.reg x).toNat = (s.reg x).toNat * 2 % 256 ∧
      (x ≠ VF → (t.reg VF).toNat = (s.reg x).toNat / 128) ∧ Frame { regs := [x, VF] } s t)

/-- R110: `SUBN Vx, Vy`: with `V[y] > V[x]` the difference and 1; else `V[x]` is not written and `VF` is 0 (D11); with
`x = 15` the flag stands on both paths (R100, D10). -/
def Obligations.SubNShortCircuits : Prop :=
  ∀ (s : State) (x y : Reg),
    ((s.reg y).toNat > (s.reg x).toNat →
      ∃ t, exec (.subN x y) s = .next t ∧
        (x ≠ VF → (t.reg x).toNat + (s.reg x).toNat = (s.reg y).toNat) ∧ t.reg VF = 1 ∧
        Frame { regs := [x, VF] } s t) ∧
    ((s.reg y).toNat ≤ (s.reg x).toNat →
      ∃ t, exec (.subN x y) s = .next t ∧ t.reg VF = 0 ∧ Frame { regs := [VF] } s t)

/-- R112, R30: `RND Vx, kk`: the step's random byte AND `kk`; no bit that `kk` lacks is ever set. -/
def Obligations.RandomIsMaskedByImmediate : Prop :=
  ∀ (s : State) (x : Reg) (kk : Byte),
    ∃ t, exec (.randomAnd x kk) s = .next t ∧ Frame { regs := [x] } s t ∧
      ∀ k, (t.reg x).getLsbD k = (s.rnd.getLsbD k && kk.getLsbD k)

/-! ## The display -/

/-- R120, R24: `CLS` unsets every pixel and emits `FrameReady`; `VF` is not written. -/
def Obligations.ClearScreenUnsetsEveryPixel : Prop :=
  ∀ s : State, ∃ t, exec .clearScreen s = .next t ∧ (∀ c r, t.pixel c r = false) ∧ t.frameReady = true ∧
    Frame { fb := true, frameReady := true } s t

/-- R121: `BlitRow`: for each of the 8 bits, most significant first, at columns `x, x+1, ..., x+7` modulo 64: a 1 bit
toggles its pixel, a 0 bit leaves it, every other pixel is unchanged; a collision is reported exactly when a 1 bit meets
a set pixel. -/
def Obligations.BlitRowTogglesUnderOneBits : Prop :=
  ∀ (d : Display) (x0 : Fin 64) (y0 : Fin 32) (b : Byte),
    (∀ k c, k < 8 → c.val = (x0.val + k) % 64 →
      Display.pixel (blitRow d x0 y0 b).1 c y0 = (Display.pixel d c y0 != b.getLsbD (7 - k))) ∧
    (∀ c r, (r ≠ y0 ∨ ∀ k, k < 8 → c.val ≠ (x0.val + k) % 64) →
      Display.pixel (blitRow d x0 y0 b).1 c r = Display.pixel d c r) ∧
    ((blitRow d x0 y0 b).2 = true ↔
      ∃ k c, k < 8 ∧ c.val = (x0.val + k) % 64 ∧ b.getLsbD (7 - k) = true ∧ Display.pixel d c y0 = true)

/-- R122, R123 (b): a `Dxyn` whose sprite lies in memory XORs every pixel with the sprite's bit, wrapping at both edges,
sets `VF` exactly when a set pixel met a 1 bit, and emits `FrameReady`; `n = 0` draws nothing (D26). -/
def Obligations.DrawXorsSpriteAndReportsCollision : Prop :=
  ∀ (s : State) (x y : Reg) (n : Fin 16), n = 0 ∨ s.i.toNat + n.val ≤ 4096 →
    ∃ t, exec (.draw x y n) s = .next t ∧
      (∀ c r, t.pixel c r = (s.pixel c r != s.spriteBit x y n.val c r)) ∧
      ((∃ c r, s.pixel c r = true ∧ s.spriteBit x y n.val c r = true) → t.reg VF = 1) ∧
      ((∀ c r, s.pixel c r = true → s.spriteBit x y n.val c r = false) → t.reg VF = 0) ∧
      t.frameReady = true ∧ Frame { regs := [VF], fb := true, frameReady := true } s t

/-- R122, R56, R152: a `Dxyn` whose sprite leaves memory raises `MemoryBoundsError` at the first address of 4096 or more;
the rows before it stay drawn, `VF` is not written and no `FrameReady` is emitted (D19). `fault_pc` is the address of the
instruction (R21, R155, D20), which is `pc - 2` in execute by R13 and R81 (DEDUCED, log entry 9). -/
def Obligations.DrawOutOfBoundsKeepsDrawnRows : Prop :=
  ∀ (s : State) (x y : Reg) (n : Fin 16), n ≠ 0 → 4096 < s.i.toNat + n.val →
    ∃ t, exec (.draw x y n) s = .next t ∧
      t.mode = .faulted { cause := .memoryBoundsError (max s.i.toNat 4096), faultPc := s.pc - 2 } ∧
      (∀ c r, t.pixel c r = (s.pixel c r != s.spriteBit x y (4096 - s.i.toNat) c r)) ∧
      Frame { fb := true, mode := true } s t

/-- R123 (a): drawing the same sprite twice restores the framebuffer, and the second `VF` is 1 exactly when a 1 bit of
the sprite lies on a pixel that is set after the first draw. -/
def Obligations.DrawingTwiceRestoresDisplay : Prop :=
  ∀ (s : State) (x y : Reg) (n : Fin 16), x ≠ VF → y ≠ VF → n = 0 ∨ s.i.toNat + n.val ≤ 4096 →
    ∃ t u, exec (.draw x y n) s = .next t ∧ exec (.draw x y n) t = .next u ∧ u.fb = s.fb ∧
      ((∃ c r, s.spriteBit x y n.val c r = true ∧ t.pixel c r = true) → u.reg VF = 1) ∧
      ((∀ c r, s.spriteBit x y n.val c r = true → t.pixel c r = false) → u.reg VF = 0)

/-! ## Timers and keys -/

/-- R130, R131, R132: `Fx07` reads `DT`, `Fx15` writes it and `Fx18` writes `ST`, as plain copies (assignment: G4). -/
def Obligations.TimerAccessesCopy : Prop :=
  ∀ (s : State) (x : Reg),
    (∃ t, exec (.readDelay x) s = .next t ∧ t.reg x = s.dt ∧ Frame { regs := [x] } s t) ∧
    (∃ t, exec (.setDelay x) s = .next t ∧ t.dt = s.reg x ∧ Frame { dt := true } s t) ∧
    (∃ t, exec (.setSound x) s = .next t ∧ t.st = s.reg x ∧ Frame { st := true } s t)

/-- R133: `Fx0A` stores a reported key in `V[x]` at once, and otherwise waits for one with `V[x]` and `pc` unchanged
(D14). -/
def Obligations.WaitForKeyStoresOrWaits : Prop :=
  ∀ (s : State) (x : Reg),
    (∀ c : Key, s.key = some c →
      ∃ t, exec (.waitForKeyPress x) s = .next t ∧ (t.reg x).toNat = c.toNat ∧ Frame { regs := [x] } s t) ∧
    (s.key = none →
      ∃ t, exec (.waitForKeyPress x) s = .next t ∧ t.mode = .waiting x ∧ t.continues = true ∧
        Frame { mode := true } s t)

/-! ## The index register and memory transfer -/

/-- R140: `LD I, nnn`. -/
def Obligations.LoadISetsIndex : Prop :=
  ∀ (s : State) (nnn : Addr), ∃ t, exec (.loadI nnn) s = .next t ∧ t.i.toNat = nnn.toNat ∧ Frame { i := true } s t

/-- R141: `ADD I, Vx` adds modulo 65536; `VF` is not written, whatever the sum (D17). -/
def Obligations.AddIWrapsWithoutFlag : Prop :=
  ∀ (s : State) (x : Reg),
    ∃ t, exec (.addI x) s = .next t ∧ t.i.toNat = (s.i.toNat + (s.reg x).toNat) % 65536 ∧ Frame { i := true } s t

/-- R142, R44: `LD F, Vx` sets `I` to `FONT_BASE + 5 * V[x]`, all 8 bits used, for every legal `FONT_BASE` (D3, D16). -/
def Obligations.FontDigitAddress : Prop :=
  ∀ (s : State) (x : Reg), s.cfg.wf = true →
    ∃ t, exec (.setIToFontDigit x) s = .next t ∧ t.i.toNat = s.cfg.fontBase + 5 * (s.reg x).toNat ∧
      Frame { i := true } s t

/-- R143: `LD B, Vx` stores the decimal digits of `V[x]` at `I`, `I + 1`, `I + 2`; it raises `MemoryBoundsError` at the
first of them that is 4096 or more, and the earlier bytes stay written. -/
def Obligations.BcdStoresDecimalDigits : Prop :=
  ∀ (s : State) (x : Reg),
    (s.i.toNat ≤ 4093 →
      ∃ t, exec (.binaryCodeI x) s = .next t ∧
        t.readByte (s.effAddr 0) = some (BitVec.ofNat 8 ((s.reg x).toNat / 100)) ∧
        t.readByte (s.effAddr 1) = some (BitVec.ofNat 8 ((s.reg x).toNat / 10 % 10)) ∧
        t.readByte (s.effAddr 2) = some (BitVec.ofNat 8 ((s.reg x).toNat % 10)) ∧
        Frame { memFrom := s.effAddr 0, memCount := 3 } s t) ∧
    (s.i.toNat = 4094 →
      ∃ t, exec (.binaryCodeI x) s = .next t ∧ FaultedBy (.memoryBoundsError 4096) t ∧
        t.readByte 4094 = some (BitVec.ofNat 8 ((s.reg x).toNat / 100)) ∧
        t.readByte 4095 = some (BitVec.ofNat 8 ((s.reg x).toNat / 10 % 10)) ∧
        Frame { mode := true, memFrom := 4094, memCount := 2 } s t) ∧
    (s.i.toNat = 4095 →
      ∃ t, exec (.binaryCodeI x) s = .next t ∧ FaultedBy (.memoryBoundsError 4096) t ∧
        t.readByte 4095 = some (BitVec.ofNat 8 ((s.reg x).toNat / 100)) ∧
        Frame { mode := true, memFrom := 4095, memCount := 1 } s t) ∧
    (4096 ≤ s.i.toNat →
      ∃ t, exec (.binaryCodeI x) s = .next t ∧ FaultedBy (.memoryBoundsError s.i.toNat) t ∧
        Frame { mode := true } s t)

/-- R144: `LD [I], Vx` stores `V[0]` to `V[x]`, inclusive, from `I` upwards; `I` is not changed (D15). -/
def Obligations.StoreBlockWritesInclusiveRange : Prop :=
  ∀ (s : State) (x : Reg), s.i.toNat + x.val < 4096 →
    ∃ t, exec (.copyRegistersToI x) s = .next t ∧
      (∀ r : Reg, r ≤ x → t.readByte (s.effAddr r.val) = some (s.reg r)) ∧
      Frame { memFrom := s.effAddr 0, memCount := x.val + 1 } s t

/-- R144, R56, R152: the block store that leaves memory raises `MemoryBoundsError` at the first address of 4096 or more;
the bytes before it stay written (D19). `fault_pc` is the address of the instruction (R21, R155, D20), which is `pc - 2`
in execute by R13 and R81 (DEDUCED, log entry 9). -/
def Obligations.StoreBlockOutOfBoundsKeepsBytes : Prop :=
  ∀ (s : State) (x : Reg), 4096 ≤ s.i.toNat + x.val →
    ∃ t, exec (.copyRegistersToI x) s = .next t ∧
      t.mode = .faulted { cause := .memoryBoundsError (max s.i.toNat 4096), faultPc := s.pc - 2 } ∧
      (∀ r : Reg, r ≤ x → s.effAddr r.val < 4096 → t.readByte (s.effAddr r.val) = some (s.reg r)) ∧
      Frame { mode := true, memFrom := s.effAddr 0, memCount := 4096 - s.i.toNat } s t

/-- R145: `LD Vx, [I]` loads `V[0]` to `V[x]`, inclusive; the registers above `x`, `I` and memory are unchanged (D15). -/
def Obligations.LoadBlockReadsInclusiveRange : Prop :=
  ∀ (s : State) (x : Reg), s.i.toNat + x.val < 4096 →
    ∃ t, exec (.copyIToRegisters x) s = .next t ∧
      (∀ r : Reg, r ≤ x → s.readByte (s.effAddr r.val) = some (t.reg r)) ∧
      Frame { regs := s.blockRegs x } s t

/-- R145, R56, R152: the block load that leaves memory raises `MemoryBoundsError` at the first address of 4096 or more;
the registers before it keep their loaded values (D19). `fault_pc` is the address of the instruction (R21, R155, D20),
which is `pc - 2` in execute by R13 and R81 (DEDUCED, log entry 9). -/
def Obligations.LoadBlockOutOfBoundsKeepsRegisters : Prop :=
  ∀ (s : State) (x : Reg), 4096 ≤ s.i.toNat + x.val →
    ∃ t, exec (.copyIToRegisters x) s = .next t ∧
      t.mode = .faulted { cause := .memoryBoundsError (max s.i.toNat 4096), faultPc := s.pc - 2 } ∧
      (∀ r : Reg, r ≤ x → s.effAddr r.val < 4096 → s.readByte (s.effAddr r.val) = some (t.reg r)) ∧
      Frame { regs := s.blockRegs x, mode := true } s t

/-- R145's round-trip law: storing registers `0..x` and loading them back from the same `I`, whatever the registers hold
by then, gives the stored values. -/
def Obligations.StoreThenLoadReproducesRegisters : Prop :=
  ∀ (s : State) (x : Reg) (v : Vector Byte 16), s.i.toNat + x.val < 4096 →
    ∃ t u, exec (.copyRegistersToI x) s = .next t ∧ exec (.copyIToRegisters x) { t with v := v } = .next u ∧
      ∀ r : Reg, (r ≤ x → u.reg r = s.reg r) ∧ (x < r → u.reg r = v[r.val])

/-! ## Placing an instruction -/

/-- Log entry 10: `withFetchWord` does what its name says: the next step runs exactly the instruction of the word, in
every state, at an address a fetch can be made from. -/
def Obligations.PlacedInstructionRunsNext : Prop :=
  ∀ (s : State) (i : Instr),
    let p := s.withFetchWord 16 (encode i).toNat
    p.mode = .running ∧ p.pc.toNat ≤ 4094 ∧
    ∃ key rnd host draws,
      step p = exec i
        { p with host := host, draws := draws, key := key, rnd := rnd, frameReady := false, pc := p.pc + 2 }
end

