-- ==== Sys2Proof/Laws/Decode.lean ====
section
/-! SUPPORT. Encoded words as numbers, and the fields and bytes of a word. -/

namespace Sys2Proof

/-! ## Words as numbers -/

theorem toNat_append_lt {n m : Nat} (a : BitVec n) (b : BitVec m) : (a ++ b).toNat = a.toNat * 2 ^ m + b.toNat := by
  rw [BitVec.toNat_append, ← Nat.shiftLeft_add_eq_or_of_lt b.isLt, Nat.shiftLeft_eq]

theorem encA_toNat (f : BitVec 4) (a : Addr) : (encA f a).toNat = f.toNat * 4096 + a.toNat := toNat_append_lt f a

theorem encXK_toNat (f : BitVec 4) (x : Reg) (k : Byte) :
    (encXK f x k).toNat = f.toNat * 4096 + x.val * 256 + k.toNat := by
  have h : (encXK f x k).toNat = (f ++ BitVec.ofFin (w := 4) x).toNat * 2 ^ 8 + k.toNat := toNat_append_lt _ k
  rw [toNat_append_lt] at h
  rw [h]
  show (f.toNat * 2 ^ 4 + x.val) * 2 ^ 8 + k.toNat = _
  omega

theorem encXY_toNat (f : BitVec 4) (x y : Reg) (n : BitVec 4) :
    (encXY f x y n).toNat = f.toNat * 4096 + x.val * 256 + y.val * 16 + n.toNat := by
  have h : (encXY f x y n).toNat =
      (f ++ BitVec.ofFin (w := 4) x ++ BitVec.ofFin (w := 4) y).toNat * 2 ^ 4 + n.toNat := toNat_append_lt _ n
  rw [toNat_append_lt, toNat_append_lt] at h
  rw [h]
  show ((f.toNat * 2 ^ 4 + x.val) * 2 ^ 4 + y.val) * 2 ^ 4 + n.toNat = _
  omega

theorem famOf_toNat (w : Word) : (famOf w).toNat = w.toNat / 4096 := by
  have := w.isLt
  simp only [famOf, BitVec.extractLsb'_toNat, Nat.shiftRight_eq_div_pow]; omega

theorem xOf_val (w : Word) : (xOf w).val = w.toNat / 256 % 16 := by
  show (w.extractLsb' 8 4).toNat = _
  simp only [BitVec.extractLsb'_toNat, Nat.shiftRight_eq_div_pow]

theorem yOf_val (w : Word) : (yOf w).val = w.toNat / 16 % 16 := by
  show (w.extractLsb' 4 4).toNat = _
  simp only [BitVec.extractLsb'_toNat, Nat.shiftRight_eq_div_pow]

theorem nOf_val (w : Word) : (nOf w).val = w.toNat % 16 := by
  show (w.extractLsb' 0 4).toNat = _
  simp only [BitVec.extractLsb'_toNat, Nat.shiftRight_zero]

theorem kkOf_toNat (w : Word) : (kkOf w).toNat = w.toNat % 256 := by
  simp only [kkOf, BitVec.extractLsb'_toNat, Nat.shiftRight_eq_div_pow]; omega

theorem nnnOf_toNat (w : Word) : (nnnOf w).toNat = w.toNat % 4096 := by
  simp only [nnnOf, BitVec.extractLsb'_toNat, Nat.shiftRight_eq_div_pow]; omega

/-! ## The fields of an encoded word -/

@[simp] theorem famOf_encA (f : BitVec 4) (a : Addr) : famOf (encA f a) = f := by
  have := a.isLt
  apply BitVec.eq_of_toNat_eq; rw [famOf_toNat, encA_toNat]; omega

@[simp] theorem nnnOf_encA (f : BitVec 4) (a : Addr) : nnnOf (encA f a) = a := by
  have := a.isLt
  apply BitVec.eq_of_toNat_eq; rw [nnnOf_toNat, encA_toNat]; omega

@[simp] theorem famOf_encXK (f : BitVec 4) (x : Reg) (k : Byte) : famOf (encXK f x k) = f := by
  have := k.isLt; have := x.isLt
  apply BitVec.eq_of_toNat_eq; rw [famOf_toNat, encXK_toNat]; omega

@[simp] theorem xOf_encXK (f : BitVec 4) (x : Reg) (k : Byte) : xOf (encXK f x k) = x := by
  have := k.isLt; have := x.isLt
  apply Fin.ext; rw [xOf_val, encXK_toNat]; omega

@[simp] theorem kkOf_encXK (f : BitVec 4) (x : Reg) (k : Byte) : kkOf (encXK f x k) = k := by
  have := k.isLt; have := x.isLt
  apply BitVec.eq_of_toNat_eq; rw [kkOf_toNat, encXK_toNat]; omega

@[simp] theorem famOf_encXY (f : BitVec 4) (x y : Reg) (n : BitVec 4) : famOf (encXY f x y n) = f := by
  have := n.isLt; have := x.isLt; have := y.isLt
  apply BitVec.eq_of_toNat_eq; rw [famOf_toNat, encXY_toNat]; omega

@[simp] theorem xOf_encXY (f : BitVec 4) (x y : Reg) (n : BitVec 4) : xOf (encXY f x y n) = x := by
  have := n.isLt; have := x.isLt; have := y.isLt
  apply Fin.ext; rw [xOf_val, encXY_toNat]; omega

@[simp] theorem yOf_encXY (f : BitVec 4) (x y : Reg) (n : BitVec 4) : yOf (encXY f x y n) = y := by
  have := n.isLt; have := x.isLt; have := y.isLt
  apply Fin.ext; rw [yOf_val, encXY_toNat]; omega

@[simp] theorem nOf_encXY (f : BitVec 4) (x y : Reg) (n : BitVec 4) : nOf (encXY f x y n) = n.toFin := by
  have := n.isLt; have := x.isLt; have := y.isLt
  apply Fin.ext; rw [nOf_val, encXY_toNat]; show _ = n.toNat; omega

/-! ## Bytes -/

@[simp] theorem wordOfBytes_hi_lo (w : Word) : wordOfBytes (hiByte w) (loByte w) = w := by
  have := w.isLt
  apply BitVec.eq_of_toNat_eq
  rw [wordOfBytes]
  refine (toNat_append_lt (hiByte w) (loByte w)).trans ?_
  simp only [hiByte, loByte, BitVec.extractLsb'_toNat, Nat.shiftRight_eq_div_pow]; omega

/-! ## Masks -/

theorem encA_and (f : BitVec 4) (a : Addr) : encA f a &&& 0xF000#16 = encA f 0 := by
  show (f ++ a : BitVec (4 + 12)) &&& (BitVec.allOnes 4 ++ 0#12 : BitVec (4 + 12)) = (f ++ 0#12 : BitVec (4 + 12))
  rw [BitVec.and_append, BitVec.and_allOnes, BitVec.and_zero]

theorem encXK_and_family (f : BitVec 4) (x : Reg) (k : Byte) : encXK f x k &&& 0xF000#16 = encXK f 0 0 := by
  show (f ++ BitVec.ofFin (w := 4) x ++ k : BitVec (4 + 4 + 8)) &&&
      (BitVec.allOnes 4 ++ 0#4 ++ 0#8 : BitVec (4 + 4 + 8)) = (f ++ 0#4 ++ 0#8 : BitVec (4 + 4 + 8))
  rw [BitVec.and_append, BitVec.and_append, BitVec.and_allOnes, BitVec.and_zero, BitVec.and_zero]

theorem encXK_and_low (f : BitVec 4) (x : Reg) (k : Byte) : encXK f x k &&& 0xF0FF#16 = encXK f 0 k := by
  show (f ++ BitVec.ofFin (w := 4) x ++ k : BitVec (4 + 4 + 8)) &&&
      (BitVec.allOnes 4 ++ 0#4 ++ BitVec.allOnes 8 : BitVec (4 + 4 + 8)) = (f ++ 0#4 ++ k : BitVec (4 + 4 + 8))
  rw [BitVec.and_append, BitVec.and_append, BitVec.and_allOnes, BitVec.and_zero, BitVec.and_allOnes]

theorem encXY_and_family (f : BitVec 4) (x y : Reg) (n : BitVec 4) : encXY f x y n &&& 0xF000#16 = encXY f 0 0 0 := by
  show (f ++ BitVec.ofFin (w := 4) x ++ BitVec.ofFin (w := 4) y ++ n : BitVec (4 + 4 + 4 + 4)) &&&
      (BitVec.allOnes 4 ++ 0#4 ++ 0#4 ++ 0#4 : BitVec (4 + 4 + 4 + 4)) = (f ++ 0#4 ++ 0#4 ++ 0#4 : BitVec (4 + 4 + 4 + 4))
  rw [BitVec.and_append, BitVec.and_append, BitVec.and_append, BitVec.and_allOnes, BitVec.and_zero,
    BitVec.and_zero, BitVec.and_zero]

theorem encXY_and_low (f : BitVec 4) (x y : Reg) (n : BitVec 4) : encXY f x y n &&& 0xF00F#16 = encXY f 0 0 n := by
  show (f ++ BitVec.ofFin (w := 4) x ++ BitVec.ofFin (w := 4) y ++ n : BitVec (4 + 4 + 4 + 4)) &&&
      (BitVec.allOnes 4 ++ 0#4 ++ 0#4 ++ BitVec.allOnes 4 : BitVec (4 + 4 + 4 + 4)) =
        (f ++ 0#4 ++ 0#4 ++ n : BitVec (4 + 4 + 4 + 4))
  rw [BitVec.and_append, BitVec.and_append, BitVec.and_append, BitVec.and_allOnes, BitVec.and_zero,
    BitVec.and_zero, BitVec.and_allOnes]

end Sys2Proof
end

