-- ==== Sys2Proof/Laws/State.lean ====
section
/-! SUPPORT. What each update of the state does to each field, and what the readers of registers, memory and pixels see
after it, so that no later proof unfolds a record update. -/

namespace Sys2Proof.Machine

/-! Writing a register. -/

@[simp] theorem State.setReg_v (s : State) (r : Reg) (b : Byte) : (s.setReg r b).v = s.v.set r.val b := rfl
@[simp] theorem State.setReg_i (s : State) (r : Reg) (b : Byte) : (s.setReg r b).i = s.i := rfl
@[simp] theorem State.setReg_pc (s : State) (r : Reg) (b : Byte) : (s.setReg r b).pc = s.pc := rfl
@[simp] theorem State.setReg_dt (s : State) (r : Reg) (b : Byte) : (s.setReg r b).dt = s.dt := rfl
@[simp] theorem State.setReg_st (s : State) (r : Reg) (b : Byte) : (s.setReg r b).st = s.st := rfl
@[simp] theorem State.setReg_stack (s : State) (r : Reg) (b : Byte) : (s.setReg r b).stack = s.stack := rfl
@[simp] theorem State.setReg_mem (s : State) (r : Reg) (b : Byte) : (s.setReg r b).mem = s.mem := rfl
@[simp] theorem State.setReg_fb (s : State) (r : Reg) (b : Byte) : (s.setReg r b).fb = s.fb := rfl
@[simp] theorem State.setReg_mode (s : State) (r : Reg) (b : Byte) : (s.setReg r b).mode = s.mode := rfl
@[simp] theorem State.setReg_cfg (s : State) (r : Reg) (b : Byte) : (s.setReg r b).cfg = s.cfg := rfl
@[simp] theorem State.setReg_host (s : State) (r : Reg) (b : Byte) : (s.setReg r b).host = s.host := rfl
@[simp] theorem State.setReg_draws (s : State) (r : Reg) (b : Byte) : (s.setReg r b).draws = s.draws := rfl
@[simp] theorem State.setReg_key (s : State) (r : Reg) (b : Byte) : (s.setReg r b).key = s.key := rfl
@[simp] theorem State.setReg_rnd (s : State) (r : Reg) (b : Byte) : (s.setReg r b).rnd = s.rnd := rfl
@[simp] theorem State.setReg_frameReady (s : State) (r : Reg) (b : Byte) : (s.setReg r b).frameReady = s.frameReady := rfl

/-! Loading a block of registers. -/

@[simp] theorem State.loadRegs_i (s : State) (bs : List Byte) : (s.loadRegs bs).i = s.i := rfl
@[simp] theorem State.loadRegs_pc (s : State) (bs : List Byte) : (s.loadRegs bs).pc = s.pc := rfl
@[simp] theorem State.loadRegs_dt (s : State) (bs : List Byte) : (s.loadRegs bs).dt = s.dt := rfl
@[simp] theorem State.loadRegs_st (s : State) (bs : List Byte) : (s.loadRegs bs).st = s.st := rfl
@[simp] theorem State.loadRegs_stack (s : State) (bs : List Byte) : (s.loadRegs bs).stack = s.stack := rfl
@[simp] theorem State.loadRegs_mem (s : State) (bs : List Byte) : (s.loadRegs bs).mem = s.mem := rfl
@[simp] theorem State.loadRegs_fb (s : State) (bs : List Byte) : (s.loadRegs bs).fb = s.fb := rfl
@[simp] theorem State.loadRegs_mode (s : State) (bs : List Byte) : (s.loadRegs bs).mode = s.mode := rfl
@[simp] theorem State.loadRegs_cfg (s : State) (bs : List Byte) : (s.loadRegs bs).cfg = s.cfg := rfl
@[simp] theorem State.loadRegs_host (s : State) (bs : List Byte) : (s.loadRegs bs).host = s.host := rfl
@[simp] theorem State.loadRegs_draws (s : State) (bs : List Byte) : (s.loadRegs bs).draws = s.draws := rfl
@[simp] theorem State.loadRegs_key (s : State) (bs : List Byte) : (s.loadRegs bs).key = s.key := rfl
@[simp] theorem State.loadRegs_rnd (s : State) (bs : List Byte) : (s.loadRegs bs).rnd = s.rnd := rfl
@[simp] theorem State.loadRegs_frameReady (s : State) (bs : List Byte) : (s.loadRegs bs).frameReady = s.frameReady := rfl

/-! Taking a fault. -/

@[simp] theorem State.raise_v (s : State) (a : Word) (c : FaultCause) : (s.raise a c).v = s.v := rfl
@[simp] theorem State.raise_i (s : State) (a : Word) (c : FaultCause) : (s.raise a c).i = s.i := rfl
@[simp] theorem State.raise_pc (s : State) (a : Word) (c : FaultCause) : (s.raise a c).pc = s.pc := rfl
@[simp] theorem State.raise_dt (s : State) (a : Word) (c : FaultCause) : (s.raise a c).dt = s.dt := rfl
@[simp] theorem State.raise_st (s : State) (a : Word) (c : FaultCause) : (s.raise a c).st = s.st := rfl
@[simp] theorem State.raise_stack (s : State) (a : Word) (c : FaultCause) : (s.raise a c).stack = s.stack := rfl
@[simp] theorem State.raise_mem (s : State) (a : Word) (c : FaultCause) : (s.raise a c).mem = s.mem := rfl
@[simp] theorem State.raise_fb (s : State) (a : Word) (c : FaultCause) : (s.raise a c).fb = s.fb := rfl
@[simp] theorem State.raise_mode (s : State) (a : Word) (c : FaultCause) : (s.raise a c).mode = .faulted { cause := c, faultPc := a } := rfl
@[simp] theorem State.raise_cfg (s : State) (a : Word) (c : FaultCause) : (s.raise a c).cfg = s.cfg := rfl
@[simp] theorem State.raise_host (s : State) (a : Word) (c : FaultCause) : (s.raise a c).host = s.host := rfl
@[simp] theorem State.raise_draws (s : State) (a : Word) (c : FaultCause) : (s.raise a c).draws = s.draws := rfl
@[simp] theorem State.raise_key (s : State) (a : Word) (c : FaultCause) : (s.raise a c).key = s.key := rfl
@[simp] theorem State.raise_rnd (s : State) (a : Word) (c : FaultCause) : (s.raise a c).rnd = s.rnd := rfl
@[simp] theorem State.raise_frameReady (s : State) (a : Word) (c : FaultCause) : (s.raise a c).frameReady = s.frameReady := rfl

/-! Taking a fault in the execute phase. -/

@[simp] theorem State.raiseHere_v (s : State) (c : FaultCause) : (s.raiseHere c).v = s.v := rfl
@[simp] theorem State.raiseHere_i (s : State) (c : FaultCause) : (s.raiseHere c).i = s.i := rfl
@[simp] theorem State.raiseHere_pc (s : State) (c : FaultCause) : (s.raiseHere c).pc = s.pc := rfl
@[simp] theorem State.raiseHere_dt (s : State) (c : FaultCause) : (s.raiseHere c).dt = s.dt := rfl
@[simp] theorem State.raiseHere_st (s : State) (c : FaultCause) : (s.raiseHere c).st = s.st := rfl
@[simp] theorem State.raiseHere_stack (s : State) (c : FaultCause) : (s.raiseHere c).stack = s.stack := rfl
@[simp] theorem State.raiseHere_mem (s : State) (c : FaultCause) : (s.raiseHere c).mem = s.mem := rfl
@[simp] theorem State.raiseHere_fb (s : State) (c : FaultCause) : (s.raiseHere c).fb = s.fb := rfl
@[simp] theorem State.raiseHere_mode (s : State) (c : FaultCause) : (s.raiseHere c).mode = .faulted { cause := c, faultPc := s.pc - 2 } := rfl
@[simp] theorem State.raiseHere_cfg (s : State) (c : FaultCause) : (s.raiseHere c).cfg = s.cfg := rfl
@[simp] theorem State.raiseHere_host (s : State) (c : FaultCause) : (s.raiseHere c).host = s.host := rfl
@[simp] theorem State.raiseHere_draws (s : State) (c : FaultCause) : (s.raiseHere c).draws = s.draws := rfl
@[simp] theorem State.raiseHere_key (s : State) (c : FaultCause) : (s.raiseHere c).key = s.key := rfl
@[simp] theorem State.raiseHere_rnd (s : State) (c : FaultCause) : (s.raiseHere c).rnd = s.rnd := rfl
@[simp] theorem State.raiseHere_frameReady (s : State) (c : FaultCause) : (s.raiseHere c).frameReady = s.frameReady := rfl

/-! The advance of `pc` after a fetch. -/

@[simp] theorem State.advance_v (s : State)  : (s.advance).v = s.v := rfl
@[simp] theorem State.advance_i (s : State)  : (s.advance).i = s.i := rfl
@[simp] theorem State.advance_pc (s : State)  : (s.advance).pc = s.pc + 2 := rfl
@[simp] theorem State.advance_dt (s : State)  : (s.advance).dt = s.dt := rfl
@[simp] theorem State.advance_st (s : State)  : (s.advance).st = s.st := rfl
@[simp] theorem State.advance_stack (s : State)  : (s.advance).stack = s.stack := rfl
@[simp] theorem State.advance_mem (s : State)  : (s.advance).mem = s.mem := rfl
@[simp] theorem State.advance_fb (s : State)  : (s.advance).fb = s.fb := rfl
@[simp] theorem State.advance_mode (s : State)  : (s.advance).mode = s.mode := rfl
@[simp] theorem State.advance_cfg (s : State)  : (s.advance).cfg = s.cfg := rfl
@[simp] theorem State.advance_host (s : State)  : (s.advance).host = s.host := rfl
@[simp] theorem State.advance_draws (s : State)  : (s.advance).draws = s.draws := rfl
@[simp] theorem State.advance_key (s : State)  : (s.advance).key = s.key := rfl
@[simp] theorem State.advance_rnd (s : State)  : (s.advance).rnd = s.rnd := rfl
@[simp] theorem State.advance_frameReady (s : State)  : (s.advance).frameReady = s.frameReady := rfl

/-! The start of a `Step`. -/

@[simp] theorem State.beginStep_v (s : State) (k : Option Key) (r : Byte) : (s.beginStep k r).v = s.v := rfl
@[simp] theorem State.beginStep_i (s : State) (k : Option Key) (r : Byte) : (s.beginStep k r).i = s.i := rfl
@[simp] theorem State.beginStep_pc (s : State) (k : Option Key) (r : Byte) : (s.beginStep k r).pc = s.pc := rfl
@[simp] theorem State.beginStep_dt (s : State) (k : Option Key) (r : Byte) : (s.beginStep k r).dt = s.dt := rfl
@[simp] theorem State.beginStep_st (s : State) (k : Option Key) (r : Byte) : (s.beginStep k r).st = s.st := rfl
@[simp] theorem State.beginStep_stack (s : State) (k : Option Key) (r : Byte) : (s.beginStep k r).stack = s.stack := rfl
@[simp] theorem State.beginStep_mem (s : State) (k : Option Key) (r : Byte) : (s.beginStep k r).mem = s.mem := rfl
@[simp] theorem State.beginStep_fb (s : State) (k : Option Key) (r : Byte) : (s.beginStep k r).fb = s.fb := rfl
@[simp] theorem State.beginStep_mode (s : State) (k : Option Key) (r : Byte) : (s.beginStep k r).mode = s.mode := rfl
@[simp] theorem State.beginStep_cfg (s : State) (k : Option Key) (r : Byte) : (s.beginStep k r).cfg = s.cfg := rfl
@[simp] theorem State.beginStep_host (s : State) (k : Option Key) (r : Byte) : (s.beginStep k r).host = s.host := rfl
@[simp] theorem State.beginStep_draws (s : State) (k : Option Key) (r : Byte) : (s.beginStep k r).draws = s.draws := rfl
@[simp] theorem State.beginStep_key (s : State) (k : Option Key) (r : Byte) : (s.beginStep k r).key = k := rfl
@[simp] theorem State.beginStep_rnd (s : State) (k : Option Key) (r : Byte) : (s.beginStep k r).rnd = r := rfl
@[simp] theorem State.beginStep_frameReady (s : State) (k : Option Key) (r : Byte) : (s.beginStep k r).frameReady = false := rfl

/-! The flag, then the result. -/

@[simp] theorem State.writeFlagThenResult_v (s : State) (x : Reg) (f r : Byte) : (s.writeFlagThenResult x f r).v = (s.v.set VF.val f).set x.val r := rfl
@[simp] theorem State.writeFlagThenResult_i (s : State) (x : Reg) (f r : Byte) : (s.writeFlagThenResult x f r).i = s.i := rfl
@[simp] theorem State.writeFlagThenResult_pc (s : State) (x : Reg) (f r : Byte) : (s.writeFlagThenResult x f r).pc = s.pc := rfl
@[simp] theorem State.writeFlagThenResult_dt (s : State) (x : Reg) (f r : Byte) : (s.writeFlagThenResult x f r).dt = s.dt := rfl
@[simp] theorem State.writeFlagThenResult_st (s : State) (x : Reg) (f r : Byte) : (s.writeFlagThenResult x f r).st = s.st := rfl
@[simp] theorem State.writeFlagThenResult_stack (s : State) (x : Reg) (f r : Byte) : (s.writeFlagThenResult x f r).stack = s.stack := rfl
@[simp] theorem State.writeFlagThenResult_mem (s : State) (x : Reg) (f r : Byte) : (s.writeFlagThenResult x f r).mem = s.mem := rfl
@[simp] theorem State.writeFlagThenResult_fb (s : State) (x : Reg) (f r : Byte) : (s.writeFlagThenResult x f r).fb = s.fb := rfl
@[simp] theorem State.writeFlagThenResult_mode (s : State) (x : Reg) (f r : Byte) : (s.writeFlagThenResult x f r).mode = s.mode := rfl
@[simp] theorem State.writeFlagThenResult_cfg (s : State) (x : Reg) (f r : Byte) : (s.writeFlagThenResult x f r).cfg = s.cfg := rfl
@[simp] theorem State.writeFlagThenResult_host (s : State) (x : Reg) (f r : Byte) : (s.writeFlagThenResult x f r).host = s.host := rfl
@[simp] theorem State.writeFlagThenResult_draws (s : State) (x : Reg) (f r : Byte) : (s.writeFlagThenResult x f r).draws = s.draws := rfl
@[simp] theorem State.writeFlagThenResult_key (s : State) (x : Reg) (f r : Byte) : (s.writeFlagThenResult x f r).key = s.key := rfl
@[simp] theorem State.writeFlagThenResult_rnd (s : State) (x : Reg) (f r : Byte) : (s.writeFlagThenResult x f r).rnd = s.rnd := rfl
@[simp] theorem State.writeFlagThenResult_frameReady (s : State) (x : Reg) (f r : Byte) : (s.writeFlagThenResult x f r).frameReady = s.frameReady := rfl

/-! The result, then the flag. -/

@[simp] theorem State.writeResultThenFlag_v (s : State) (x : Reg) (r f : Byte) : (s.writeResultThenFlag x r f).v = (s.v.set x.val r).set VF.val f := rfl
@[simp] theorem State.writeResultThenFlag_i (s : State) (x : Reg) (r f : Byte) : (s.writeResultThenFlag x r f).i = s.i := rfl
@[simp] theorem State.writeResultThenFlag_pc (s : State) (x : Reg) (r f : Byte) : (s.writeResultThenFlag x r f).pc = s.pc := rfl
@[simp] theorem State.writeResultThenFlag_dt (s : State) (x : Reg) (r f : Byte) : (s.writeResultThenFlag x r f).dt = s.dt := rfl
@[simp] theorem State.writeResultThenFlag_st (s : State) (x : Reg) (r f : Byte) : (s.writeResultThenFlag x r f).st = s.st := rfl
@[simp] theorem State.writeResultThenFlag_stack (s : State) (x : Reg) (r f : Byte) : (s.writeResultThenFlag x r f).stack = s.stack := rfl
@[simp] theorem State.writeResultThenFlag_mem (s : State) (x : Reg) (r f : Byte) : (s.writeResultThenFlag x r f).mem = s.mem := rfl
@[simp] theorem State.writeResultThenFlag_fb (s : State) (x : Reg) (r f : Byte) : (s.writeResultThenFlag x r f).fb = s.fb := rfl
@[simp] theorem State.writeResultThenFlag_mode (s : State) (x : Reg) (r f : Byte) : (s.writeResultThenFlag x r f).mode = s.mode := rfl
@[simp] theorem State.writeResultThenFlag_cfg (s : State) (x : Reg) (r f : Byte) : (s.writeResultThenFlag x r f).cfg = s.cfg := rfl
@[simp] theorem State.writeResultThenFlag_host (s : State) (x : Reg) (r f : Byte) : (s.writeResultThenFlag x r f).host = s.host := rfl
@[simp] theorem State.writeResultThenFlag_draws (s : State) (x : Reg) (r f : Byte) : (s.writeResultThenFlag x r f).draws = s.draws := rfl
@[simp] theorem State.writeResultThenFlag_key (s : State) (x : Reg) (r f : Byte) : (s.writeResultThenFlag x r f).key = s.key := rfl
@[simp] theorem State.writeResultThenFlag_rnd (s : State) (x : Reg) (r f : Byte) : (s.writeResultThenFlag x r f).rnd = s.rnd := rfl
@[simp] theorem State.writeResultThenFlag_frameReady (s : State) (x : Reg) (r f : Byte) : (s.writeResultThenFlag x r f).frameReady = s.frameReady := rfl

/-! A conditional skip. -/

@[simp] theorem State.skipIf_v (s : State) (c : Bool) : (s.skipIf c).v = s.v := by cases c <;> rfl
@[simp] theorem State.skipIf_i (s : State) (c : Bool) : (s.skipIf c).i = s.i := by cases c <;> rfl
@[simp] theorem State.skipIf_pc (s : State) (c : Bool) : (s.skipIf c).pc = if c then s.pc + 2 else s.pc := by
  cases c <;> rfl
@[simp] theorem State.skipIf_dt (s : State) (c : Bool) : (s.skipIf c).dt = s.dt := by cases c <;> rfl
@[simp] theorem State.skipIf_st (s : State) (c : Bool) : (s.skipIf c).st = s.st := by cases c <;> rfl
@[simp] theorem State.skipIf_stack (s : State) (c : Bool) : (s.skipIf c).stack = s.stack := by cases c <;> rfl
@[simp] theorem State.skipIf_mem (s : State) (c : Bool) : (s.skipIf c).mem = s.mem := by cases c <;> rfl
@[simp] theorem State.skipIf_fb (s : State) (c : Bool) : (s.skipIf c).fb = s.fb := by cases c <;> rfl
@[simp] theorem State.skipIf_mode (s : State) (c : Bool) : (s.skipIf c).mode = s.mode := by cases c <;> rfl
@[simp] theorem State.skipIf_cfg (s : State) (c : Bool) : (s.skipIf c).cfg = s.cfg := by cases c <;> rfl
@[simp] theorem State.skipIf_host (s : State) (c : Bool) : (s.skipIf c).host = s.host := by cases c <;> rfl
@[simp] theorem State.skipIf_draws (s : State) (c : Bool) : (s.skipIf c).draws = s.draws := by cases c <;> rfl
@[simp] theorem State.skipIf_key (s : State) (c : Bool) : (s.skipIf c).key = s.key := by cases c <;> rfl
@[simp] theorem State.skipIf_rnd (s : State) (c : Bool) : (s.skipIf c).rnd = s.rnd := by cases c <;> rfl
@[simp] theorem State.skipIf_frameReady (s : State) (c : Bool) : (s.skipIf c).frameReady = s.frameReady := by cases c <;> rfl

/-! The end of an instruction that accessed memory. -/

@[simp] theorem State.endAccess_v (s : State) (e : Option Nat) : (s.endAccess e).v = s.v := by cases e <;> rfl
@[simp] theorem State.endAccess_i (s : State) (e : Option Nat) : (s.endAccess e).i = s.i := by cases e <;> rfl
@[simp] theorem State.endAccess_pc (s : State) (e : Option Nat) : (s.endAccess e).pc = s.pc := by cases e <;> rfl
@[simp] theorem State.endAccess_dt (s : State) (e : Option Nat) : (s.endAccess e).dt = s.dt := by cases e <;> rfl
@[simp] theorem State.endAccess_st (s : State) (e : Option Nat) : (s.endAccess e).st = s.st := by cases e <;> rfl
@[simp] theorem State.endAccess_stack (s : State) (e : Option Nat) : (s.endAccess e).stack = s.stack := by cases e <;> rfl
@[simp] theorem State.endAccess_mem (s : State) (e : Option Nat) : (s.endAccess e).mem = s.mem := by cases e <;> rfl
@[simp] theorem State.endAccess_fb (s : State) (e : Option Nat) : (s.endAccess e).fb = s.fb := by cases e <;> rfl
@[simp] theorem State.endAccess_cfg (s : State) (e : Option Nat) : (s.endAccess e).cfg = s.cfg := by cases e <;> rfl
@[simp] theorem State.endAccess_host (s : State) (e : Option Nat) : (s.endAccess e).host = s.host := by cases e <;> rfl
@[simp] theorem State.endAccess_draws (s : State) (e : Option Nat) : (s.endAccess e).draws = s.draws := by cases e <;> rfl
@[simp] theorem State.endAccess_key (s : State) (e : Option Nat) : (s.endAccess e).key = s.key := by cases e <;> rfl
@[simp] theorem State.endAccess_rnd (s : State) (e : Option Nat) : (s.endAccess e).rnd = s.rnd := by cases e <;> rfl
@[simp] theorem State.endAccess_frameReady (s : State) (e : Option Nat) : (s.endAccess e).frameReady = s.frameReady := by cases e <;> rfl
@[simp] theorem State.endAccess_none (s : State) : s.endAccess none = s := rfl
@[simp] theorem State.endAccess_some (s : State) (a : Nat) :
    s.endAccess (some a) = s.raiseHere (.memoryBoundsError a) := rfl

/-! The timer tick. -/

@[simp] theorem State.tick_v (s : State) : s.tick.v = s.v := by unfold State.tick; split <;> rfl
@[simp] theorem State.tick_i (s : State) : s.tick.i = s.i := by unfold State.tick; split <;> rfl
@[simp] theorem State.tick_pc (s : State) : s.tick.pc = s.pc := by unfold State.tick; split <;> rfl
@[simp] theorem State.tick_stack (s : State) : s.tick.stack = s.stack := by unfold State.tick; split <;> rfl
@[simp] theorem State.tick_mem (s : State) : s.tick.mem = s.mem := by unfold State.tick; split <;> rfl
@[simp] theorem State.tick_fb (s : State) : s.tick.fb = s.fb := by unfold State.tick; split <;> rfl
@[simp] theorem State.tick_mode (s : State) : s.tick.mode = s.mode := by unfold State.tick; split <;> rfl
@[simp] theorem State.tick_cfg (s : State) : s.tick.cfg = s.cfg := by unfold State.tick; split <;> rfl
@[simp] theorem State.tick_host (s : State) : s.tick.host = s.host := by unfold State.tick; split <;> rfl
@[simp] theorem State.tick_draws (s : State) : s.tick.draws = s.draws := by unfold State.tick; split <;> rfl
@[simp] theorem State.tick_key (s : State) : s.tick.key = s.key := by unfold State.tick; split <;> rfl
@[simp] theorem State.tick_rnd (s : State) : s.tick.rnd = s.rnd := by unfold State.tick; split <;> rfl
@[simp] theorem State.tick_frameReady (s : State) : s.tick.frameReady = s.frameReady := by unfold State.tick; split <;> rfl

/-! What is read after an update. -/

@[simp] theorem State.reg_setReg_same (s : State) (r : Reg) (b : Byte) : (s.setReg r b).reg r = b := by
  simp [State.reg]

theorem State.reg_setReg_ne (s : State) {r q : Reg} (b : Byte) (h : q ≠ r) : (s.setReg r b).reg q = s.reg q := by
  have : r.val ≠ q.val := fun e => h (Fin.ext e.symm)
  simp [State.reg, this]

theorem State.reg_setReg (s : State) (r q : Reg) (b : Byte) :
    (s.setReg r b).reg q = if q = r then b else s.reg q := by
  split
  · next h => subst h; simp
  · next h => exact State.reg_setReg_ne s b h

theorem State.reg_writeFlagThenResult (s : State) (x q : Reg) (f r : Byte) :
    (s.writeFlagThenResult x f r).reg q = if q = x then r else if q = VF then f else s.reg q := by
  simp [State.writeFlagThenResult, State.reg_setReg]

theorem State.reg_writeResultThenFlag (s : State) (x q : Reg) (r f : Byte) :
    (s.writeResultThenFlag x r f).reg q = if q = VF then f else if q = x then r else s.reg q := by
  simp [State.writeResultThenFlag, State.reg_setReg]

theorem State.reg_loadRegs (s : State) (bs : List Byte) (q : Reg) :
    (s.loadRegs bs).reg q = bs.getD q.val (s.reg q) := by
  simp [State.reg, State.loadRegs]

@[simp] theorem State.readByte_setReg (s : State) (r' : Reg) (b : Byte) (a : Nat) : State.readByte (s.setReg r' b) a = s.readByte a := rfl
@[simp] theorem State.pixel_setReg (s : State) (r' : Reg) (b : Byte) (c : Fin 64) (r : Fin 32) :
    State.pixel (s.setReg r' b) c r = s.pixel c r := rfl
@[simp] theorem State.readByte_loadRegs (s : State) (bs : List Byte) (a : Nat) : State.readByte (s.loadRegs bs) a = s.readByte a := rfl
@[simp] theorem State.pixel_loadRegs (s : State) (bs : List Byte) (c : Fin 64) (r : Fin 32) :
    State.pixel (s.loadRegs bs) c r = s.pixel c r := rfl
@[simp] theorem State.readByte_writeFlagThenResult (s : State) (x : Reg) (f r' : Byte) (a : Nat) : State.readByte (s.writeFlagThenResult x f r') a = s.readByte a := rfl
@[simp] theorem State.pixel_writeFlagThenResult (s : State) (x : Reg) (f r' : Byte) (c : Fin 64) (r : Fin 32) :
    State.pixel (s.writeFlagThenResult x f r') c r = s.pixel c r := rfl
@[simp] theorem State.readByte_writeResultThenFlag (s : State) (x : Reg) (r' f : Byte) (a : Nat) : State.readByte (s.writeResultThenFlag x r' f) a = s.readByte a := rfl
@[simp] theorem State.pixel_writeResultThenFlag (s : State) (x : Reg) (r' f : Byte) (c : Fin 64) (r : Fin 32) :
    State.pixel (s.writeResultThenFlag x r' f) c r = s.pixel c r := rfl
@[simp] theorem State.reg_raise (s : State) (w : Word) (e : FaultCause) (q : Reg) : State.reg (s.raise w e) q = s.reg q := rfl
@[simp] theorem State.readByte_raise (s : State) (w : Word) (e : FaultCause) (a : Nat) : State.readByte (s.raise w e) a = s.readByte a := rfl
@[simp] theorem State.pixel_raise (s : State) (w : Word) (e : FaultCause) (c : Fin 64) (r : Fin 32) :
    State.pixel (s.raise w e) c r = s.pixel c r := rfl
@[simp] theorem State.reg_raiseHere (s : State) (e : FaultCause) (q : Reg) : State.reg (s.raiseHere e) q = s.reg q := rfl
@[simp] theorem State.readByte_raiseHere (s : State) (e : FaultCause) (a : Nat) : State.readByte (s.raiseHere e) a = s.readByte a := rfl
@[simp] theorem State.pixel_raiseHere (s : State) (e : FaultCause) (c : Fin 64) (r : Fin 32) :
    State.pixel (s.raiseHere e) c r = s.pixel c r := rfl
@[simp] theorem State.reg_advance (s : State)  (q : Reg) : State.reg (s.advance) q = s.reg q := rfl
@[simp] theorem State.readByte_advance (s : State)  (a : Nat) : State.readByte (s.advance) a = s.readByte a := rfl
@[simp] theorem State.pixel_advance (s : State)  (c : Fin 64) (r : Fin 32) :
    State.pixel (s.advance) c r = s.pixel c r := rfl
@[simp] theorem State.reg_beginStep (s : State) (k : Option Key) (b : Byte) (q : Reg) : State.reg (s.beginStep k b) q = s.reg q := rfl
@[simp] theorem State.readByte_beginStep (s : State) (k : Option Key) (b : Byte) (a : Nat) : State.readByte (s.beginStep k b) a = s.readByte a := rfl
@[simp] theorem State.pixel_beginStep (s : State) (k : Option Key) (b : Byte) (c : Fin 64) (r : Fin 32) :
    State.pixel (s.beginStep k b) c r = s.pixel c r := rfl
@[simp] theorem State.reg_skipIf (s : State) (b : Bool) (q : Reg) : State.reg (s.skipIf b) q = s.reg q := by cases b <;> rfl
@[simp] theorem State.readByte_skipIf (s : State) (b : Bool) (a : Nat) : State.readByte (s.skipIf b) a = s.readByte a := by cases b <;> rfl
@[simp] theorem State.pixel_skipIf (s : State) (b : Bool) (c : Fin 64) (r : Fin 32) :
    State.pixel (s.skipIf b) c r = s.pixel c r := by cases b <;> rfl
@[simp] theorem State.reg_endAccess (s : State) (e : Option Nat) (q : Reg) : State.reg (s.endAccess e) q = s.reg q := by cases e <;> rfl
@[simp] theorem State.readByte_endAccess (s : State) (e : Option Nat) (a : Nat) : State.readByte (s.endAccess e) a = s.readByte a := by cases e <;> rfl
@[simp] theorem State.pixel_endAccess (s : State) (e : Option Nat) (c : Fin 64) (r : Fin 32) :
    State.pixel (s.endAccess e) c r = s.pixel c r := by cases e <;> rfl
@[simp] theorem State.reg_tick (s : State)  (q : Reg) : State.reg (s.tick) q = s.reg q := by unfold State.tick; split <;> rfl
@[simp] theorem State.readByte_tick (s : State)  (a : Nat) : State.readByte (s.tick) a = s.readByte a := by unfold State.tick; split <;> rfl
@[simp] theorem State.pixel_tick (s : State)  (c : Fin 64) (r : Fin 32) :
    State.pixel (s.tick) c r = s.pixel c r := by unfold State.tick; split <;> rfl
@[simp] theorem State.reg_with_i (s : State) (z : Word) (q : Reg) : State.reg ({ s with i := z }) q = s.reg q := rfl
@[simp] theorem State.readByte_with_i (s : State) (z : Word) (a : Nat) : State.readByte ({ s with i := z }) a = s.readByte a := rfl
@[simp] theorem State.pixel_with_i (s : State) (z : Word) (c : Fin 64) (r : Fin 32) :
    State.pixel ({ s with i := z }) c r = s.pixel c r := rfl
@[simp] theorem State.reg_with_pc (s : State) (z : Word) (q : Reg) : State.reg ({ s with pc := z }) q = s.reg q := rfl
@[simp] theorem State.readByte_with_pc (s : State) (z : Word) (a : Nat) : State.readByte ({ s with pc := z }) a = s.readByte a := rfl
@[simp] theorem State.pixel_with_pc (s : State) (z : Word) (c : Fin 64) (r : Fin 32) :
    State.pixel ({ s with pc := z }) c r = s.pixel c r := rfl
@[simp] theorem State.reg_with_dt (s : State) (z : Byte) (q : Reg) : State.reg ({ s with dt := z }) q = s.reg q := rfl
@[simp] theorem State.readByte_with_dt (s : State) (z : Byte) (a : Nat) : State.readByte ({ s with dt := z }) a = s.readByte a := rfl
@[simp] theorem State.pixel_with_dt (s : State) (z : Byte) (c : Fin 64) (r : Fin 32) :
    State.pixel ({ s with dt := z }) c r = s.pixel c r := rfl
@[simp] theorem State.reg_with_st (s : State) (z : Byte) (q : Reg) : State.reg ({ s with st := z }) q = s.reg q := rfl
@[simp] theorem State.readByte_with_st (s : State) (z : Byte) (a : Nat) : State.readByte ({ s with st := z }) a = s.readByte a := rfl
@[simp] theorem State.pixel_with_st (s : State) (z : Byte) (c : Fin 64) (r : Fin 32) :
    State.pixel ({ s with st := z }) c r = s.pixel c r := rfl
@[simp] theorem State.reg_with_stack (s : State) (z : List Word) (q : Reg) : State.reg ({ s with stack := z }) q = s.reg q := rfl
@[simp] theorem State.readByte_with_stack (s : State) (z : List Word) (a : Nat) : State.readByte ({ s with stack := z }) a = s.readByte a := rfl
@[simp] theorem State.pixel_with_stack (s : State) (z : List Word) (c : Fin 64) (r : Fin 32) :
    State.pixel ({ s with stack := z }) c r = s.pixel c r := rfl
@[simp] theorem State.reg_with_mode (s : State) (z : Mode) (q : Reg) : State.reg ({ s with mode := z }) q = s.reg q := rfl
@[simp] theorem State.readByte_with_mode (s : State) (z : Mode) (a : Nat) : State.readByte ({ s with mode := z }) a = s.readByte a := rfl
@[simp] theorem State.pixel_with_mode (s : State) (z : Mode) (c : Fin 64) (r : Fin 32) :
    State.pixel ({ s with mode := z }) c r = s.pixel c r := rfl
@[simp] theorem State.reg_with_host (s : State) (z : List HostOp) (q : Reg) : State.reg ({ s with host := z }) q = s.reg q := rfl
@[simp] theorem State.readByte_with_host (s : State) (z : List HostOp) (a : Nat) : State.readByte ({ s with host := z }) a = s.readByte a := rfl
@[simp] theorem State.pixel_with_host (s : State) (z : List HostOp) (c : Fin 64) (r : Fin 32) :
    State.pixel ({ s with host := z }) c r = s.pixel c r := rfl
@[simp] theorem State.reg_withDisplay (s : State) (d : Display) (z : Bool) (q : Reg) : State.reg ({ s with fb := d, frameReady := z }) q = s.reg q := rfl
@[simp] theorem State.readByte_withDisplay (s : State) (d : Display) (z : Bool) (a : Nat) : State.readByte ({ s with fb := d, frameReady := z }) a = s.readByte a := rfl
@[simp] theorem State.reg_withDisplayOnly (s : State) (d : Display) (q : Reg) : State.reg ({ s with fb := d }) q = s.reg q := rfl
@[simp] theorem State.readByte_withDisplayOnly (s : State) (d : Display) (a : Nat) : State.readByte ({ s with fb := d }) a = s.readByte a := rfl
@[simp] theorem State.reg_withMem (s : State) (m : Memory) (q : Reg) : State.reg ({ s with mem := m }) q = s.reg q := rfl
@[simp] theorem State.pixel_withMem (s : State) (m : Memory) (c : Fin 64) (r : Fin 32) :
    State.pixel ({ s with mem := m }) c r = s.pixel c r := rfl

end Sys2Proof.Machine
end

