-- ==== Sys2Proof/Laws/Display.lean ====
section
/-! SUPPORT. The laws of the blit engine: which pixels a toggled pixel, a blitted row and a blitted sprite change, and
when they report a collision. -/

namespace Sys2Proof.Machine

theorem Display.pixel_toggle (d : Display) (c c' : Fin 64) (r r' : Fin 32) :
    Display.pixel (Display.toggle d c r) c' r' = (Display.pixel d c' r' ^^ decide (c' = c ∧ r' = r)) := by
  by_cases hr : r' = r
  · subst hr
    by_cases hc : c' = c
    · subst hc; simp [Display.pixel, Display.toggle]
    · have : c.val ≠ c'.val := fun e => hc (Fin.ext e.symm)
      simp [Display.pixel, Display.toggle, this, hc]
  · have : r.val ≠ r'.val := fun e => hr (Fin.ext e.symm)
    simp [Display.pixel, Display.toggle, this, hr]

@[simp] theorem Display.pixel_clear (c : Fin 64) (r : Fin 32) : Display.pixel Display.clear c r = false := by
  simp [Display.pixel, Display.clear]

theorem Display.ext_pixel {d e : Display} (h : ∀ c r, Display.pixel d c r = Display.pixel e c r) : d = e := by
  apply Vector.ext; intro r hr
  apply Vector.ext; intro c hc
  exact h ⟨c, hc⟩ ⟨r, hr⟩

/-- The bit of a sprite row that falls on column `c` when the row starts at column `x0` (R121): its distance from `x0`,
counted to the right with wrap-around, is its index from the most significant bit. -/
def rowBitAt (x0 : Fin 64) (rowByte : Byte) (c : Fin 64) : Bool :=
  decide ((c.val + 64 - x0.val) % 64 < 8) && rowByte.getLsbD (7 - (c.val + 64 - x0.val) % 64)

/-- The bits of a list of bit positions that fall on column `c`. -/
def someBitAt (x0 : Fin 64) (rowByte : Byte) (c : Fin 64) (is : List Nat) : Bool :=
  is.any fun i => rowByte.getLsbD (7 - i) && decide (c = wrapCol (x0.val + i))

/-- What the bits of one row do, position by position, when no two of them fall on one column. -/
theorem blitBit_fold (x0 : Fin 64) (y0 : Fin 32) (rowByte : Byte) (is : List Nat)
    (hnd : is.Pairwise fun i j => wrapCol (x0.val + i) ≠ wrapCol (x0.val + j)) (acc : Display × Bool) :
    (∀ c r, Display.pixel (is.foldl (blitBit x0 y0 rowByte) acc).1 c r =
      (Display.pixel acc.1 c r ^^ (decide (r = y0) && someBitAt x0 rowByte c is))) ∧
    ((is.foldl (blitBit x0 y0 rowByte) acc).2 = true ↔
      acc.2 = true ∨ ∃ c, Display.pixel acc.1 c y0 = true ∧ someBitAt x0 rowByte c is = true) := by
  induction is generalizing acc with
  | nil => simp [someBitAt]
  | cons i is ih =>
    obtain ⟨hi, hr⟩ := List.pairwise_cons.mp hnd
    obtain ⟨ih1, ih2⟩ := ih hr (blitBit x0 y0 rowByte acc i)
    by_cases hb : rowByte.getLsbD (7 - i)
    · have hfst : (blitBit x0 y0 rowByte acc i).1 = Display.toggle acc.1 (wrapCol (x0.val + i)) y0 := by
        simp only [blitBit, hb, if_true]
      have hsnd : (blitBit x0 y0 rowByte acc i).2 =
          (acc.2 || Display.pixel acc.1 (wrapCol (x0.val + i)) y0) := by simp only [blitBit, hb, if_true]
      have hnot : someBitAt x0 rowByte (wrapCol (x0.val + i)) is = false := by
        unfold someBitAt
        rw [List.any_eq_false]
        intro j hj
        simp [hi j hj]
      have hcons : ∀ c, someBitAt x0 rowByte c (i :: is) =
          (decide (c = wrapCol (x0.val + i)) || someBitAt x0 rowByte c is) := by
        intro c; simp [someBitAt, hb]
      refine ⟨fun c r => ?_, ?_⟩
      · rw [List.foldl_cons, ih1, hfst, Display.pixel_toggle, hcons]
        by_cases hc : c = wrapCol (x0.val + i)
        · subst hc
          by_cases hy : r = y0 <;> simp [hnot, hy]
        · simp [hc]
      · rw [List.foldl_cons, ih2, hfst, hsnd]
        constructor
        · rintro (h | ⟨c, hp, hs⟩)
          · rcases (Bool.or_eq_true _ _).mp h with h | h
            · exact .inl h
            · exact .inr ⟨_, h, by simp [hcons]⟩
          · refine .inr ⟨c, ?_, by simp [hcons, hs]⟩
            have : c ≠ wrapCol (x0.val + i) := fun e => by rw [e, hnot] at hs; exact absurd hs (by decide)
            simpa [Display.pixel_toggle, this] using hp
        · rintro (h | ⟨c, hp, hs⟩)
          · exact .inl (by simp [h])
          · rw [hcons] at hs
            by_cases hc : c = wrapCol (x0.val + i)
            · subst hc; exact .inl (by simp [hp])
            · simp only [hc, decide_false, Bool.false_or] at hs
              exact .inr ⟨c, by simpa [Display.pixel_toggle, hc] using hp, hs⟩
    · have he : blitBit x0 y0 rowByte acc i = acc := by simp [blitBit, hb]
      have hcons : ∀ c, someBitAt x0 rowByte c (i :: is) = someBitAt x0 rowByte c is := by
        intro c; simp [someBitAt, hb]
      rw [he] at ih1 ih2
      refine ⟨fun c r => ?_, ?_⟩
      · rw [List.foldl_cons, he, ih1, hcons]
      · rw [List.foldl_cons, he, ih2]; simp only [hcons]

theorem someBitAt_row (x0 : Fin 64) (rowByte : Byte) (c : Fin 64) :
    someBitAt x0 rowByte c [0, 1, 2, 3, 4, 5, 6, 7] = rowBitAt x0 rowByte c := by
  have hx := x0.isLt
  have hc := c.isLt
  have key : ∀ i, i < 8 → (c = wrapCol (x0.val + i)) = ((c.val + 64 - x0.val) % 64 = i) := by
    intro i hi
    rw [Fin.ext_iff]
    simp only [wrapCol, Fin.ofNat]
    exact propext (by omega)
  unfold someBitAt rowBitAt
  generalize hk : (c.val + 64 - x0.val) % 64 = k at key
  have hk64 : k < 64 := by omega
  simp only [List.any_cons, List.any_nil, Bool.or_false, key 0 (by omega), key 1 (by omega), key 2 (by omega),
    key 3 (by omega), key 4 (by omega), key 5 (by omega), key 6 (by omega), key 7 (by omega)]
  by_cases h8 : k < 8
  · have : k = 0 ∨ k = 1 ∨ k = 2 ∨ k = 3 ∨ k = 4 ∨ k = 5 ∨ k = 6 ∨ k = 7 := by omega
    rcases this with rfl | rfl | rfl | rfl | rfl | rfl | rfl | rfl <;> simp
  · have h : ∀ i, i < 8 → ¬(k = i) := fun i hi e => h8 (e ▸ hi)
    simp [h8, h 0, h 1, h 2, h 3, h 4, h 5, h 6, h 7]

/-- Everything `BlitRow` does to the framebuffer (R121, R123 (b)). -/
theorem pixel_blitRow (d : Display) (x0 : Fin 64) (y0 : Fin 32) (b : Byte) (c : Fin 64) (r : Fin 32) :
    Display.pixel (blitRow d x0 y0 b).1 c r = (Display.pixel d c r ^^ (decide (r = y0) && rowBitAt x0 b c)) := by
  rw [← someBitAt_row]
  exact (blitBit_fold x0 y0 b _ (by revert x0; decide) (d, false)).1 c r

/-- When `BlitRow` reports a collision (R121). -/
theorem collision_blitRow (d : Display) (x0 : Fin 64) (y0 : Fin 32) (b : Byte) :
    (blitRow d x0 y0 b).2 = true ↔ ∃ c, Display.pixel d c y0 = true ∧ rowBitAt x0 b c = true := by
  simp only [← someBitAt_row]
  refine (blitBit_fold x0 y0 b _ (by revert x0; decide) (d, false)).2.trans ?_
  simp

/-- The bit of a sprite that falls on pixel `(c, r)` when its first byte starts at column `x0` of row `row` (R122). -/
def spriteBitAt (x0 : Fin 64) : (row : Nat) → List Byte → Fin 64 → Fin 32 → Bool
  | _, [], _, _ => false
  | row, b :: bs, c, r => (decide (r = wrapRow row) && rowBitAt x0 b c) || spriteBitAt x0 (row + 1) bs c r

theorem spriteBitAt_row {x0 : Fin 64} {row : Nat} {bs : List Byte} {c : Fin 64} {r : Fin 32}
    (h : spriteBitAt x0 row bs c r = true) : ∃ k, k < bs.length ∧ r = wrapRow (row + k) := by
  induction bs generalizing row with
  | nil => simp [spriteBitAt] at h
  | cons b bs ih =>
    simp only [spriteBitAt, Bool.or_eq_true, Bool.and_eq_true, decide_eq_true_eq] at h
    rcases h with ⟨h, -⟩ | h
    · exact ⟨0, by simp, by simpa using h⟩
    · obtain ⟨k, hk, e⟩ := ih h
      exact ⟨k + 1, by simpa using hk, by rw [e]; congr 1; omega⟩

/-- The sprite bit in closed form: the pixel's distance from the origin row, with wrap-around, picks the byte. -/
theorem spriteBitAt_eq (x0 : Fin 64) (row : Nat) (bs : List Byte) (c : Fin 64) (r : Fin 32) (hlen : bs.length ≤ 31)
    (hrow : row + bs.length ≤ 64) :
    spriteBitAt x0 row bs c r =
      match bs[(r.val + 64 - row) % 32]? with
      | some b => rowBitAt x0 b c
      | none => false := by
  induction bs generalizing row with
  | nil => simp [spriteBitAt]
  | cons b bs ih =>
    have hr := r.isLt
    simp only [List.length_cons] at hlen hrow
    rw [spriteBitAt, ih (row + 1) (by omega) (by omega)]
    by_cases e : (r.val + 64 - row) % 32 = 0
    · have h1 : r = wrapRow row := by rw [Fin.ext_iff]; simp only [wrapRow, Fin.ofNat]; omega
      have h2 : (r.val + 64 - (row + 1)) % 32 = 31 := by omega
      have h3 : bs[31]? = none := List.getElem?_eq_none (by omega)
      rw [e, h2, h3]; simp [← h1]
    · have h1 : ¬r = wrapRow row := by rw [Fin.ext_iff]; simp only [wrapRow, Fin.ofNat]; omega
      obtain ⟨m, hm⟩ : ∃ m, (r.val + 64 - row) % 32 = m + 1 := ⟨(r.val + 64 - row) % 32 - 1, by omega⟩
      have h2 : (r.val + 64 - (row + 1)) % 32 = m := by omega
      rw [hm, h2]; simp [h1]

/-- Everything the row loop does, for a sprite of at most 32 rows: each pixel is XORed with the sprite's bit, and a
collision is reported exactly when a set pixel lies under a 1 bit (R122, R123 (b)). -/
theorem blitRows_spec (x0 : Fin 64) (row : Nat) (bs : List Byte) (hlen : bs.length ≤ 32) (acc : Display × Bool) :
    (∀ c r, Display.pixel (blitRows x0 row bs acc).1 c r =
      (Display.pixel acc.1 c r ^^ spriteBitAt x0 row bs c r)) ∧
    ((blitRows x0 row bs acc).2 = true ↔
      acc.2 = true ∨ ∃ c r, Display.pixel acc.1 c r = true ∧ spriteBitAt x0 row bs c r = true) := by
  induction bs generalizing row acc with
  | nil => simp [blitRows, spriteBitAt]
  | cons b bs ih =>
    have hlen' : bs.length + 1 ≤ 32 := by simpa using hlen
    obtain ⟨ih1, ih2⟩ := ih (row + 1) (by omega)
      ((blitRow acc.1 x0 (wrapRow row) b).1, acc.2 || (blitRow acc.1 x0 (wrapRow row) b).2)
    have hnot : ∀ c, spriteBitAt x0 (row + 1) bs c (wrapRow row) = false := by
      intro c
      by_contra hne
      obtain ⟨k, hk, e⟩ := spriteBitAt_row (Bool.eq_true_of_not_eq_false hne)
      rw [Fin.ext_iff] at e
      simp only [wrapRow, Fin.ofNat] at e
      omega
    refine ⟨fun c r => ?_, ?_⟩
    · rw [blitRows, ih1, pixel_blitRow, spriteBitAt]
      by_cases hr : r = wrapRow row
      · subst hr; simp [hnot]
      · simp [hr]
    · rw [blitRows, ih2]
      simp only [Bool.or_eq_true, collision_blitRow, pixel_blitRow, spriteBitAt]
      constructor
      · rintro ((h | ⟨c, hp, hb⟩) | ⟨c, r, hp, hs⟩)
        · exact .inl h
        · exact .inr ⟨c, _, hp, .inl (by simp [hb])⟩
        · have hr : r ≠ wrapRow row := fun e => by rw [e, hnot] at hs; exact absurd hs (by decide)
          exact .inr ⟨c, r, by simpa [hr] using hp, .inr hs⟩
      · rintro (h | ⟨c, r, hp, hs | hs⟩)
        · exact .inl (.inl h)
        · simp only [Bool.and_eq_true, decide_eq_true_eq] at hs
          obtain ⟨rfl, hb⟩ := hs
          exact .inl (.inr ⟨c, hp, hb⟩)
        · have hr : r ≠ wrapRow row := fun e => by rw [e, hnot] at hs; exact absurd hs (by decide)
          exact .inr ⟨c, r, by simpa [hr] using hp, hs⟩

end Sys2Proof.Machine
end

