-- ==== Sys2Proof/Laws/Memory.lean ====
section
/-! SUPPORT. The laws of memory: read after write, that every write keeps the canonical form, and one specification each
for the byte read, the byte write and the two block operations. -/

namespace Sys2Proof.Machine

/-! ## The list -/

theorem Memory.find_remove (m : Memory) (a a' : Nat) :
    Memory.find (Memory.remove m a) a' = if a' = a then none else Memory.find m a' := by
  induction m with
  | nil => simp [Memory.find, Memory.remove]
  | cons c rest ih =>
    by_cases hc : c.1 = a
    · by_cases ha : a' = a
      · simpa [Memory.remove, hc, ha] using ih
      · have : a ≠ a' := fun e => ha e.symm
        simpa [Memory.remove, Memory.find, hc, ha, this] using ih
    · by_cases ha : a' = a
      · subst ha; simpa [Memory.remove, Memory.find, hc] using ih
      · simp only [ha, if_false] at ih
        simp [Memory.remove, Memory.find, hc, ha, ih]

theorem Memory.find_put (m : Memory) (a a' : Nat) (b : Byte) :
    Memory.find (Memory.put m a b) a' = if a' = a then some b else Memory.find m a' := by
  induction m with
  | nil =>
    have hsym : (a = a') = (a' = a) := propext eq_comm
    simp [Memory.find, Memory.put, hsym]
  | cons c rest ih =>
    have hsym : (a = a') = (a' = a) := propext eq_comm
    by_cases hc : c.1 = a
    · by_cases ha : a' = a <;> simp [Memory.put, Memory.find, hc, ha, hsym]
    · by_cases hlt : a < c.1
      · by_cases ha : a' = a <;> simp [Memory.put, Memory.find, hc, hlt, ha, hsym]
      · by_cases ha : a' = a
        · subst ha; simpa [Memory.put, Memory.find, hc, hlt] using ih
        · simp only [ha, if_false] at ih
          simp [Memory.put, Memory.find, hc, hlt, ih, ha]

/-- Read after write, for every address and in every memory. -/
theorem Memory.get_set (cfg : Config) (m : Memory) (a a' : Nat) (b : Byte) :
    Memory.get cfg (Memory.set cfg m a b) a' = if a' = a then b else Memory.get cfg m a' := by
  unfold Memory.set Memory.get
  split
  · next hb =>
    rw [Memory.find_remove]
    by_cases ha : a' = a
    · subst ha; simp [hb]
    · simp [ha]
  · rw [Memory.find_put]
    by_cases ha : a' = a <;> simp [ha]

theorem Memory.mem_remove {m : Memory} {a : Nat} {c : Host.Cell} (h : c ∈ Memory.remove m a) : c ∈ m := by
  induction m with
  | nil => simp [Memory.remove] at h
  | cons d rest ih =>
    unfold Memory.remove at h
    split at h
    · exact List.mem_cons_of_mem _ (ih h)
    · rcases List.mem_cons.mp h with h | h
      · exact h ▸ List.mem_cons_self
      · exact List.mem_cons_of_mem _ (ih h)

theorem Memory.mem_put {m : Memory} {a : Nat} {b : Byte} {c : Host.Cell} (h : c ∈ Memory.put m a b) :
    c = (a, b) ∨ c ∈ m := by
  induction m with
  | nil => exact .inl (by simpa [Memory.put] using h)
  | cons d rest ih =>
    unfold Memory.put at h
    split at h
    · rcases List.mem_cons.mp h with h | h
      · exact .inl h
      · exact .inr (List.mem_cons_of_mem _ h)
    · split at h
      · rcases List.mem_cons.mp h with h | h
        · exact .inl h
        · exact .inr h
      · rcases List.mem_cons.mp h with h | h
        · exact .inr (h ▸ List.mem_cons_self)
        · rcases ih h with h | h
          · exact .inl h
          · exact .inr (List.mem_cons_of_mem _ h)

theorem Memory.sorted_remove {m : Memory} (a : Nat) (h : m.Pairwise (fun c d => c.1 < d.1)) :
    (Memory.remove m a).Pairwise (fun c d => c.1 < d.1) := by
  induction m with
  | nil => exact List.Pairwise.nil
  | cons d rest ih =>
    obtain ⟨hd, hr⟩ := List.pairwise_cons.mp h
    unfold Memory.remove
    split
    · exact ih hr
    · exact List.pairwise_cons.mpr ⟨fun c hc => hd c (Memory.mem_remove hc), ih hr⟩

theorem Memory.sorted_put {m : Memory} (a : Nat) (b : Byte) (h : m.Pairwise (fun c d => c.1 < d.1)) :
    (Memory.put m a b).Pairwise (fun c d => c.1 < d.1) := by
  induction m with
  | nil => exact List.pairwise_singleton _ _
  | cons d rest ih =>
    obtain ⟨hd, hr⟩ := List.pairwise_cons.mp h
    unfold Memory.put
    split
    · next e => exact List.pairwise_cons.mpr ⟨fun c hc => e ▸ hd c hc, hr⟩
    · next ne =>
      split
      · next lt =>
        refine List.pairwise_cons.mpr ⟨fun c hc => ?_, h⟩
        rcases List.mem_cons.mp hc with hc | hc
        · exact hc ▸ lt
        · exact Nat.lt_trans lt (hd c hc)
      · next ge =>
        refine List.pairwise_cons.mpr ⟨fun c hc => ?_, ih hr⟩
        rcases Memory.mem_put hc with hc | hc
        · subst hc; show d.1 < a; omega
        · exact hd c hc

/-- A write of an address that exists keeps the canonical form. -/
theorem Memory.wf_set {cfg : Config} {m : Memory} {a : Nat} (b : Byte) (ha : a < 4096) (h : Memory.wf cfg m) :
    Memory.wf cfg (Memory.set cfg m a b) := by
  unfold Memory.set
  split
  · exact ⟨Memory.sorted_remove a h.1, fun c hc => h.2 c (Memory.mem_remove hc)⟩
  · next hb =>
    refine ⟨Memory.sorted_put a b h.1, fun c hc => ?_⟩
    rcases Memory.mem_put hc with hc | hc
    · subst hc; exact ⟨ha, hb⟩
    · exact h.2 c hc

theorem Memory.wf_nil (cfg : Config) : Memory.wf cfg [] := ⟨List.Pairwise.nil, fun _ h => nomatch h⟩

theorem Memory.find_eq_none {m : Memory} {a : Nat} (h : ∀ c ∈ m, a < c.1) : Memory.find m a = none := by
  induction m with
  | nil => rfl
  | cons c rest ih =>
    have hc := h c List.mem_cons_self
    have : c.1 ≠ a := by omega
    simpa [Memory.find, this] using ih fun d hd => h d (List.mem_cons_of_mem _ hd)

theorem Memory.get_of_listed {cfg : Config} {m : Memory} {c : Host.Cell} (h : Memory.wf cfg m) (hc : c ∈ m) :
    Memory.get cfg m c.1 = c.2 := by
  induction m with
  | nil => exact nomatch hc
  | cons d rest ih =>
    obtain ⟨hd, hr⟩ := List.pairwise_cons.mp h.1
    rcases List.mem_cons.mp hc with e | e
    · subst e; simp [Memory.get, Memory.find]
    · have : d.1 ≠ c.1 := Nat.ne_of_lt (hd c e)
      simpa [Memory.get, Memory.find, this] using ih ⟨hr, fun x hx => h.2 x (List.mem_cons_of_mem _ hx)⟩ e

/-! ## Bytes -/

theorem State.readByte_of_lt (s : State) {a : Nat} (h : a < 4096) : s.readByte a = some (Memory.get s.cfg s.mem a) := by
  simp [State.readByte, h]

theorem State.readByte_of_ge (s : State) {a : Nat} (h : 4096 ≤ a) : s.readByte a = none := by
  simp [State.readByte, Nat.not_lt.mpr h]

theorem State.readByte_eq_none_iff (s : State) (a : Nat) : s.readByte a = none ↔ 4096 ≤ a := by
  unfold State.readByte; split <;> simp <;> omega

theorem State.writeByte_of_lt (s : State) {a : Nat} (b : Byte) (h : a < 4096) :
    s.writeByte a b = some { s with mem := Memory.set s.cfg s.mem a b } := by
  simp [State.writeByte, h]

theorem State.writeByte_of_ge (s : State) {a : Nat} (b : Byte) (h : 4096 ≤ a) : s.writeByte a b = none := by
  simp [State.writeByte, Nat.not_lt.mpr h]

theorem State.readByte_withSet (s : State) (a a' : Nat) (b : Byte) (h : a < 4096) :
    State.readByte { s with mem := Memory.set s.cfg s.mem a b } a' = if a' = a then some b else s.readByte a' := by
  unfold State.readByte
  by_cases ha : a' = a
  · subst ha; simp [h, Memory.get_set]
  · simp [ha, Memory.get_set]

/-! ## Blocks -/

/-- Everything a block write does: it changes memory alone. -/
theorem State.writeBytes_eq (s : State) (a : Nat) (bs : List Byte) :
    (s.writeBytes a bs).1 = { s with mem := (s.writeBytes a bs).1.mem } := by
  induction bs generalizing s a with
  | nil => rfl
  | cons b bs ih =>
    unfold State.writeBytes
    by_cases h : a < 4096
    · rw [s.writeByte_of_lt b h]
      exact (ih { s with mem := Memory.set s.cfg s.mem a b } (a + 1)).trans rfl
    · rw [s.writeByte_of_ge b (Nat.not_lt.mp h)]

/-- What a block write leaves in memory: the bytes that fit below 4096, and nothing else changed. -/
theorem State.readByte_writeBytes (s : State) (a : Nat) (bs : List Byte) (a' : Nat) :
    (s.writeBytes a bs).1.readByte a' =
      if a ≤ a' ∧ a' < a + bs.length ∧ a' < 4096 then bs[a' - a]? else s.readByte a' := by
  induction bs generalizing s a with
  | nil =>
    have : ¬(a ≤ a' ∧ a' < a + ([] : List Byte).length ∧ a' < 4096) := by rw [List.length_nil]; omega
    simp only [State.writeBytes, this, if_false]
  | cons b bs ih =>
    unfold State.writeBytes
    by_cases h : a < 4096
    · rw [s.writeByte_of_lt b h]
      refine (ih _ (a + 1)).trans ?_
      rw [State.readByte_withSet s a a' b h]
      by_cases e : a' = a
      · subst e; simp [h]
      · by_cases hin : a + 1 ≤ a' ∧ a' < a + 1 + bs.length ∧ a' < 4096
        · obtain ⟨k, rfl⟩ : ∃ k, a' = a + 1 + k := ⟨a' - (a + 1), by omega⟩
          have h1 : a + 1 + k - (a + 1) = k := by omega
          have h2 : a + 1 + k - a = k + 1 := by omega
          have h3 : a ≤ a + 1 + k ∧ a + 1 + k < a + (b :: bs).length ∧ a + 1 + k < 4096 := by
            simp only [List.length_cons]; omega
          simp only [hin, h3, h1, h2, and_self, if_true, List.getElem?_cons_succ]
        · have h3 : ¬(a ≤ a' ∧ a' < a + (b :: bs).length ∧ a' < 4096) := by
            simp only [List.length_cons]; omega
          simp only [hin, h3, e, if_false]
    · rw [s.writeByte_of_ge b (Nat.not_lt.mp h)]
      have h3 : ¬(a ≤ a' ∧ a' < a + (b :: bs).length ∧ a' < 4096) := by omega
      simp only [h3, if_false]

/-- Whether a block write faults, and where: at the first address of 4096 or more. -/
theorem State.writeBytes_fault (s : State) (a : Nat) (bs : List Byte) :
    (s.writeBytes a bs).2 = if bs = [] ∨ a + bs.length ≤ 4096 then none else some (max a 4096) := by
  induction bs generalizing s a with
  | nil => simp [State.writeBytes]
  | cons b bs ih =>
    unfold State.writeBytes
    by_cases h : a < 4096
    · rw [s.writeByte_of_lt b h]
      refine (ih _ (a + 1)).trans ?_
      cases bs with
      | nil => simp; omega
      | cons c cs =>
        have h1 : max (a + 1) 4096 = 4096 := by omega
        have h2 : max a 4096 = 4096 := by omega
        have h3 : (a + 1 + (c :: cs).length ≤ 4096) = (a + (b :: c :: cs).length ≤ 4096) := by
          simp only [List.length_cons]; exact propext (by omega)
        simp only [h1, h2, h3, reduceCtorEq, false_or]
    · rw [s.writeByte_of_ge b (Nat.not_lt.mp h)]
      have h1 : max a 4096 = a := by omega
      have h2 : ¬(a + (b :: bs).length ≤ 4096) := by simp only [List.length_cons]; omega
      simp only [h1, h2, reduceCtorEq, or_self, if_false]

/-- A block write keeps the canonical form. -/
theorem State.writeBytes_wf {s : State} (a : Nat) (bs : List Byte) (h : Memory.wf s.cfg s.mem) :
    Memory.wf s.cfg (s.writeBytes a bs).1.mem := by
  induction bs generalizing s a with
  | nil => exact h
  | cons b bs ih =>
    unfold State.writeBytes
    by_cases ha : a < 4096
    · rw [s.writeByte_of_lt b ha]
      exact ih (s := { s with mem := Memory.set s.cfg s.mem a b }) (a + 1) (Memory.wf_set b ha h)
    · rw [s.writeByte_of_ge b (Nat.not_lt.mp ha)]; exact h

/-- How many bytes a block read answers. -/
theorem State.readBytes_length (s : State) (a n : Nat) : (s.readBytes a n).1.length = min n (4096 - a) := by
  induction n generalizing a with
  | zero => simp [State.readBytes]
  | succ n ih =>
    unfold State.readBytes
    by_cases h : a < 4096
    · rw [s.readByte_of_lt h]
      simp only [List.length_cons, ih]
      omega
    · rw [s.readByte_of_ge (Nat.not_lt.mp h)]
      simp only [List.length_nil]
      omega

/-- Which bytes a block read answers. -/
theorem State.readBytes_get (s : State) (a n k : Nat) :
    (s.readBytes a n).1[k]? = if k < n then s.readByte (a + k) else none := by
  induction n generalizing a k with
  | zero => simp [State.readBytes]
  | succ n ih =>
    unfold State.readBytes
    by_cases h : a < 4096
    · rw [s.readByte_of_lt h]
      cases k with
      | zero => simp [s.readByte_of_lt h]
      | succ k =>
        have : a + 1 + k = a + (k + 1) := by omega
        simp [ih, this]
    · rw [s.readByte_of_ge (Nat.not_lt.mp h), s.readByte_of_ge (by omega)]
      simp

/-- Whether a block read faults, and where. -/
theorem State.readBytes_fault (s : State) (a n : Nat) :
    (s.readBytes a n).2 = if n = 0 ∨ a + n ≤ 4096 then none else some (max a 4096) := by
  induction n generalizing a with
  | zero => simp [State.readBytes]
  | succ n ih =>
    unfold State.readBytes
    by_cases h : a < 4096
    · rw [s.readByte_of_lt h]
      simp only [ih]
      by_cases hn : n = 0
      · subst hn; simp; omega
      · have h1 : max (a + 1) 4096 = 4096 := by omega
        have h2 : max a 4096 = 4096 := by omega
        have h3 : (a + 1 + n ≤ 4096) = (a + (n + 1) ≤ 4096) := propext (by omega)
        simp [h1, h2, h3, hn]
    · rw [s.readByte_of_ge (Nat.not_lt.mp h)]
      have h1 : max a 4096 = a := by omega
      have h2 : ¬(a + (n + 1) ≤ 4096) := by omega
      simp [h1, h2]

end Sys2Proof.Machine
end

