-- ==== Sys2Proof/Laws/Ops.lean ====
section
/-! SUPPORT. One specification for each shared operation on registers, blocks and the call stack, and the frames of the
updates most meanings are made of. -/

namespace Sys2Proof.Machine

@[simp] theorem State.effAddr_eq (s : State) (k : Nat) : s.effAddr k = s.i.toNat + k := rfl

/-! ## Register writes -/

theorem frame_setReg (s : State) (x : Reg) (b : Byte) : Frame { regs := [x] } s (s.setReg x b) := by
  simp +contextual [Frame, State.reg_setReg]

theorem frame_writeFlagThenResult (s : State) (x : Reg) (f r : Byte) :
    Frame { regs := [x, VF] } s (s.writeFlagThenResult x f r) := by
  simp +contextual [Frame, State.reg_writeFlagThenResult]

theorem frame_writeResultThenFlag (s : State) (x : Reg) (r f : Byte) :
    Frame { regs := [x, VF] } s (s.writeResultThenFlag x r f) := by
  simp +contextual [Frame, State.reg_writeResultThenFlag]

theorem frame_skipIf (s : State) (c : Bool) : Frame { pc := true } s (s.skipIf c) := by simp [Frame]

theorem frame_raiseHere (s : State) (c : FaultCause) : Frame { mode := true } s (s.raiseHere c) := by simp [Frame]

/-! ## Blocks -/

theorem State.regBlock_length (s : State) (x : Reg) : (s.regBlock x).length = x.val + 1 := by
  have := x.isLt
  simp [State.regBlock]

theorem State.regBlock_get (s : State) {x r : Reg} (h : r ≤ x) : (s.regBlock x)[r.val]? = some (s.reg r) := by
  have : r.val < x.val + 1 := Nat.lt_succ_of_le h
  simp [State.regBlock, State.reg, this]

theorem decimalDigits_length (b : Byte) : (decimalDigits b).length = 3 := rfl

/-- A block write changes only the bytes of its block. -/
theorem frame_writeBytes (s : State) (a : Nat) (bs : List Byte) :
    Frame { memFrom := a, memCount := bs.length } s (s.writeBytes a bs).1 := by
  have hread := State.readByte_writeBytes s a bs
  rw [State.writeBytes_eq] at hread ⊢
  refine ⟨fun _ _ => rfl, fun _ => rfl, fun _ => rfl, fun _ => rfl, fun _ => rfl, fun _ => rfl, fun _ _ _ => rfl,
    fun _ => rfl, fun _ => rfl, fun a' h => ?_, rfl, rfl, rfl, rfl, rfl⟩
  rw [hread, if_neg]
  exact fun h' => h ⟨h'.1, h'.2.1⟩

@[simp] theorem State.reg_writeBytes (s : State) (a : Nat) (bs : List Byte) (r : Reg) :
    (s.writeBytes a bs).1.reg r = s.reg r := by rw [State.writeBytes_eq]; rfl

/-- What a register holds after the block load of `Fx65`: the byte at its address, where it has one in memory. -/
theorem State.reg_loadBlock (s : State) (a : Nat) (x r : Reg) :
    (s.loadRegs (s.readBytes a (x.val + 1)).1).reg r =
      if r ≤ x then (s.readByte (a + r.val)).getD (s.reg r) else s.reg r := by
  rw [State.reg_loadRegs, List.getD_eq_getElem?_getD, State.readBytes_get]
  by_cases h : r ≤ x
  · have : r.val < x.val + 1 := Nat.lt_succ_of_le h
    simp [h, this]
  · have : ¬r.val < x.val + 1 := fun h' => h (Nat.le_of_lt_succ h')
    simp [h, this]

/-! ## The call stack -/

theorem State.stackFull_eq_false_iff (s : State) :
    s.stackFull = false ↔ ∀ d, s.cfg.stackDepth = some d → s.stack.length < d := by
  unfold State.stackFull
  split <;> simp_all

theorem State.push_eq_some {s t : State} {a : Word} (h : s.push a = some t) :
    t = { s with stack := a :: s.stack } ∧ s.stackFull = false := by
  unfold State.push at h
  split at h
  · cases h
  · next hf => exact ⟨(Option.some.inj h).symm, Bool.eq_false_iff.mpr hf⟩

theorem State.pop_eq_some {s t : State} {a : Word} (h : s.pop = some (a, t)) :
    ∃ rest, s.stack = a :: rest ∧ t = { s with stack := rest } := by
  unfold State.pop at h
  split at h
  · cases h
  · next b rest hs => cases h; exact ⟨rest, hs, rfl⟩

theorem State.pop_eq_none_iff (s : State) : s.pop = none ↔ s.stack = [] := by
  unfold State.pop; split <;> simp_all

end Sys2Proof.Machine
end

