-- ==== Sys2Proof/Laws/PerInstr.lean ====
section
/-! SUPPORT. The families of statements made per instruction. RowMatch: the encoded word of the instruction is a word of
the instruction's own row of the opcode map (spec/30_encoding.md R66), whatever its operands. -/

/-- The encoded word has the fixed bits of the instruction's own row of R66. -/
def Sys2Proof.Laws.RowMatch.Statement (i : Sys2Proof.Instr) : Prop := i.row.takes (Sys2Proof.encode i) = true

theorem Sys2Proof.Laws.RowMatch.halt : Sys2Proof.Laws.RowMatch.Statement .halt :=
  rfl

theorem Sys2Proof.Laws.RowMatch.clearScreen : Sys2Proof.Laws.RowMatch.Statement .clearScreen :=
  rfl

theorem Sys2Proof.Laws.RowMatch.ret : Sys2Proof.Laws.RowMatch.Statement .ret :=
  rfl

theorem Sys2Proof.Laws.RowMatch.jump (nnn : Sys2Proof.Addr) : Sys2Proof.Laws.RowMatch.Statement (.jump nnn) :=
  beq_iff_eq.mpr (Sys2Proof.encA_and _ nnn)

theorem Sys2Proof.Laws.RowMatch.call (nnn : Sys2Proof.Addr) : Sys2Proof.Laws.RowMatch.Statement (.call nnn) :=
  beq_iff_eq.mpr (Sys2Proof.encA_and _ nnn)

theorem Sys2Proof.Laws.RowMatch.skipEqImm (x : Sys2Proof.Reg) (kk : Sys2Proof.Byte) : Sys2Proof.Laws.RowMatch.Statement (.skipEqImm x kk) :=
  beq_iff_eq.mpr (Sys2Proof.encXK_and_family _ x kk)

theorem Sys2Proof.Laws.RowMatch.skipNeImm (x : Sys2Proof.Reg) (kk : Sys2Proof.Byte) : Sys2Proof.Laws.RowMatch.Statement (.skipNeImm x kk) :=
  beq_iff_eq.mpr (Sys2Proof.encXK_and_family _ x kk)

theorem Sys2Proof.Laws.RowMatch.skipEqReg (x y : Sys2Proof.Reg) : Sys2Proof.Laws.RowMatch.Statement (.skipEqReg x y) :=
  beq_iff_eq.mpr (Sys2Proof.encXY_and_low _ x y _)

theorem Sys2Proof.Laws.RowMatch.loadImm (x : Sys2Proof.Reg) (kk : Sys2Proof.Byte) : Sys2Proof.Laws.RowMatch.Statement (.loadImm x kk) :=
  beq_iff_eq.mpr (Sys2Proof.encXK_and_family _ x kk)

theorem Sys2Proof.Laws.RowMatch.addImm (x : Sys2Proof.Reg) (kk : Sys2Proof.Byte) : Sys2Proof.Laws.RowMatch.Statement (.addImm x kk) :=
  beq_iff_eq.mpr (Sys2Proof.encXK_and_family _ x kk)

theorem Sys2Proof.Laws.RowMatch.move (x y : Sys2Proof.Reg) : Sys2Proof.Laws.RowMatch.Statement (.move x y) :=
  beq_iff_eq.mpr (Sys2Proof.encXY_and_low _ x y _)

theorem Sys2Proof.Laws.RowMatch.or (x y : Sys2Proof.Reg) : Sys2Proof.Laws.RowMatch.Statement (.or x y) :=
  beq_iff_eq.mpr (Sys2Proof.encXY_and_low _ x y _)

theorem Sys2Proof.Laws.RowMatch.and (x y : Sys2Proof.Reg) : Sys2Proof.Laws.RowMatch.Statement (.and x y) :=
  beq_iff_eq.mpr (Sys2Proof.encXY_and_low _ x y _)

theorem Sys2Proof.Laws.RowMatch.xor (x y : Sys2Proof.Reg) : Sys2Proof.Laws.RowMatch.Statement (.xor x y) :=
  beq_iff_eq.mpr (Sys2Proof.encXY_and_low _ x y _)

theorem Sys2Proof.Laws.RowMatch.add (x y : Sys2Proof.Reg) : Sys2Proof.Laws.RowMatch.Statement (.add x y) :=
  beq_iff_eq.mpr (Sys2Proof.encXY_and_low _ x y _)

theorem Sys2Proof.Laws.RowMatch.sub (x y : Sys2Proof.Reg) : Sys2Proof.Laws.RowMatch.Statement (.sub x y) :=
  beq_iff_eq.mpr (Sys2Proof.encXY_and_low _ x y _)

theorem Sys2Proof.Laws.RowMatch.shiftRight (x y : Sys2Proof.Reg) : Sys2Proof.Laws.RowMatch.Statement (.shiftRight x y) :=
  beq_iff_eq.mpr (Sys2Proof.encXY_and_low _ x y _)

theorem Sys2Proof.Laws.RowMatch.subN (x y : Sys2Proof.Reg) : Sys2Proof.Laws.RowMatch.Statement (.subN x y) :=
  beq_iff_eq.mpr (Sys2Proof.encXY_and_low _ x y _)

theorem Sys2Proof.Laws.RowMatch.shiftLeft (x y : Sys2Proof.Reg) : Sys2Proof.Laws.RowMatch.Statement (.shiftLeft x y) :=
  beq_iff_eq.mpr (Sys2Proof.encXY_and_low _ x y _)

theorem Sys2Proof.Laws.RowMatch.skipNeReg (x y : Sys2Proof.Reg) : Sys2Proof.Laws.RowMatch.Statement (.skipNeReg x y) :=
  beq_iff_eq.mpr (Sys2Proof.encXY_and_low _ x y _)

theorem Sys2Proof.Laws.RowMatch.loadI (nnn : Sys2Proof.Addr) : Sys2Proof.Laws.RowMatch.Statement (.loadI nnn) :=
  beq_iff_eq.mpr (Sys2Proof.encA_and _ nnn)

theorem Sys2Proof.Laws.RowMatch.jumpOffset (nnn : Sys2Proof.Addr) : Sys2Proof.Laws.RowMatch.Statement (.jumpOffset nnn) :=
  beq_iff_eq.mpr (Sys2Proof.encA_and _ nnn)

theorem Sys2Proof.Laws.RowMatch.randomAnd (x : Sys2Proof.Reg) (kk : Sys2Proof.Byte) : Sys2Proof.Laws.RowMatch.Statement (.randomAnd x kk) :=
  beq_iff_eq.mpr (Sys2Proof.encXK_and_family _ x kk)

theorem Sys2Proof.Laws.RowMatch.draw (x y : Sys2Proof.Reg) (n : Fin 16) : Sys2Proof.Laws.RowMatch.Statement (.draw x y n) :=
  beq_iff_eq.mpr (Sys2Proof.encXY_and_family _ x y _)

theorem Sys2Proof.Laws.RowMatch.skipKeyPressed (x : Sys2Proof.Reg) : Sys2Proof.Laws.RowMatch.Statement (.skipKeyPressed x) :=
  beq_iff_eq.mpr (Sys2Proof.encXK_and_low _ x _)

theorem Sys2Proof.Laws.RowMatch.skipKeyNotPressed (x : Sys2Proof.Reg) : Sys2Proof.Laws.RowMatch.Statement (.skipKeyNotPressed x) :=
  beq_iff_eq.mpr (Sys2Proof.encXK_and_low _ x _)

theorem Sys2Proof.Laws.RowMatch.readDelay (x : Sys2Proof.Reg) : Sys2Proof.Laws.RowMatch.Statement (.readDelay x) :=
  beq_iff_eq.mpr (Sys2Proof.encXK_and_low _ x _)

theorem Sys2Proof.Laws.RowMatch.waitForKeyPress (x : Sys2Proof.Reg) : Sys2Proof.Laws.RowMatch.Statement (.waitForKeyPress x) :=
  beq_iff_eq.mpr (Sys2Proof.encXK_and_low _ x _)

theorem Sys2Proof.Laws.RowMatch.setDelay (x : Sys2Proof.Reg) : Sys2Proof.Laws.RowMatch.Statement (.setDelay x) :=
  beq_iff_eq.mpr (Sys2Proof.encXK_and_low _ x _)

theorem Sys2Proof.Laws.RowMatch.setSound (x : Sys2Proof.Reg) : Sys2Proof.Laws.RowMatch.Statement (.setSound x) :=
  beq_iff_eq.mpr (Sys2Proof.encXK_and_low _ x _)

theorem Sys2Proof.Laws.RowMatch.addI (x : Sys2Proof.Reg) : Sys2Proof.Laws.RowMatch.Statement (.addI x) :=
  beq_iff_eq.mpr (Sys2Proof.encXK_and_low _ x _)

theorem Sys2Proof.Laws.RowMatch.setIToFontDigit (x : Sys2Proof.Reg) : Sys2Proof.Laws.RowMatch.Statement (.setIToFontDigit x) :=
  beq_iff_eq.mpr (Sys2Proof.encXK_and_low _ x _)

theorem Sys2Proof.Laws.RowMatch.binaryCodeI (x : Sys2Proof.Reg) : Sys2Proof.Laws.RowMatch.Statement (.binaryCodeI x) :=
  beq_iff_eq.mpr (Sys2Proof.encXK_and_low _ x _)

theorem Sys2Proof.Laws.RowMatch.copyRegistersToI (x : Sys2Proof.Reg) : Sys2Proof.Laws.RowMatch.Statement (.copyRegistersToI x) :=
  beq_iff_eq.mpr (Sys2Proof.encXK_and_low _ x _)

theorem Sys2Proof.Laws.RowMatch.copyIToRegisters (x : Sys2Proof.Reg) : Sys2Proof.Laws.RowMatch.Statement (.copyIToRegisters x) :=
  beq_iff_eq.mpr (Sys2Proof.encXK_and_low _ x _)
end

