-- ==== Sys2Proof/Laws/Step.lean ====
section
/-! SUPPORT. What one step can do, said once: by host operation, run state and phase. -/

namespace Sys2Proof.Machine

/-- Every instruction answers a next state. -/
theorem exec_next (i : Instr) (s : State) : ∃ t, exec i s = .next t := by cases i <;> exact ⟨_, rfl⟩

/-- What a `Step` by run state can do, when it answers `t`. -/
theorem stepByMode_cases {s t : State} (h : s.stepByMode = .next t) :
    (∃ a, s.mode = .running ∧ s.fetchWord = .error a ∧ t = s.raise s.pc (.memoryBoundsError a)) ∨
    (∃ w r, s.mode = .running ∧ s.fetchWord = .ok w ∧ decode w = .error r ∧
      t = s.advance.raise s.pc (.decodeError w)) ∨
    (∃ w i, s.mode = .running ∧ s.fetchWord = .ok w ∧ decode w = .ok i ∧ exec i s.advance = .next t) ∨
    (∃ x, s.mode = .waiting x ∧ t = s.pollWhileWaiting x) ∨
    (s.mode = .halted ∧ t = s) ∨
    (∃ f, s.mode = .faulted f ∧ t = s) := by
  unfold State.stepByMode at h
  split at h
  · next hm =>
    unfold State.cycle at h
    split at h
    · next a hf => exact .inl ⟨a, hm, hf, (Host.Outcome.next.inj h).symm⟩
    · next w hf =>
      split at h
      · next r hd => exact .inr (.inl ⟨w, r, hm, hf, hd, (Host.Outcome.next.inj h).symm⟩)
      · next i hd => exact .inr (.inr (.inl ⟨w, i, hm, hf, hd, h⟩))
  · next x hm => exact .inr (.inr (.inr (.inl ⟨x, hm, (Host.Outcome.next.inj h).symm⟩)))
  · next hm => exact .inr (.inr (.inr (.inr (.inl ⟨hm, (Host.Outcome.next.inj h).symm⟩))))
  · next f hm => exact .inr (.inr (.inr (.inr (.inr ⟨f, hm, (Host.Outcome.next.inj h).symm⟩))))

/-- What one operation of the host can do, when it answers `t`: an accepted `Init`, a `Tick`, or a `Step` from a state
that differs from `s` in the model's own fields alone. -/
theorem step_cases {s t : State} (h : step s = .next t) :
    (∃ image rest, s.host = .init image :: rest ∧ imageFits image = true ∧
      t = ({ State.fresh s.cfg with host := rest, draws := s.draws }.writeBytes 0x200 image).1) ∨
    (∃ rest, s.host = .tick :: rest ∧ t = { s with host := rest, frameReady := false }.tick) ∨
    (∃ host draws key rnd, (s.host = [] ∨ ∃ rest, s.host = .step key rnd :: rest) ∧
      { s with host := host, draws := draws, key := key, rnd := rnd, frameReady := false }.stepByMode = .next t) := by
  unfold step State.nextOperation at h
  split at h
  · next hh => exact .inr (.inr ⟨s.host, _, _, _, .inl hh, h⟩)
  · next key rnd rest hh => exact .inr (.inr ⟨rest, s.draws, key, rnd, .inr ⟨rest, hh⟩, h⟩)
  · next rest hh => exact .inr (.inl ⟨rest, hh, (Host.Outcome.next.inj h).symm⟩)
  · next image rest hh =>
    unfold State.initWith at h
    split at h
    · next hf => exact .inl ⟨image, rest, hh, hf, (Host.Outcome.next.inj h).symm⟩
    · cases h

/-- When the fetch succeeds, and what it reads (R81, R46). -/
theorem State.fetchWord_eq_ok_iff (s : State) (w : Word) :
    s.fetchWord = .ok w ↔ ∃ hi lo, s.readByte s.pc.toNat = some hi ∧ s.readByte (s.pc.toNat + 1) = some lo ∧
      w = wordOfBytes hi lo := by
  unfold State.fetchWord
  split
  · next h => simp [h]
  · next hi h =>
    split
    · next h' => simp [h']
    · next lo h' => simp [h, h', eq_comm]

/-- A fetch succeeds exactly when `pc` is at most 4094 (R81). -/
theorem State.fetchWord_pc {s : State} {w : Word} (h : s.fetchWord = .ok w) : s.pc.toNat ≤ 4094 := by
  obtain ⟨hi, lo, -, h2, -⟩ := (s.fetchWord_eq_ok_iff w).mp h
  by_contra hc
  rw [s.readByte_of_ge (by omega)] at h2
  cases h2

/-- Where a fetch faults (R81). -/
theorem State.fetchWord_error {s : State} {a : Nat} (h : s.fetchWord = .error a) :
    4095 ≤ s.pc.toNat ∧ a = max s.pc.toNat 4096 := by
  unfold State.fetchWord at h
  split at h
  · next hr => cases h; rw [State.readByte_eq_none_iff] at hr; omega
  · next hi hr =>
    split at h
    · next hr' =>
      cases h
      rw [State.readByte_eq_none_iff] at hr'
      have : ¬4096 ≤ s.pc.toNat := fun hc => by rw [s.readByte_of_ge hc] at hr; cases hr
      omega
    · cases h

end Sys2Proof.Machine
end

