-- ==== Sys2Proof/Tests/Slice0.lean ====
section
/-! SUPPORT. The model's own tests. Expected values are those of spec/95_test_vectors.md (named in each comment) or of the
rule cited. First the checks of WellFormed, then decoding, then one step of each instruction, then for every obligation with
hypotheses a concrete state that meets them all. -/

namespace Sys2Proof.Tests

open Sys2Proof.Machine

/-! ## WellFormed: an ill-formed term for each check -/

/-- R68: one word of each illegal group. -/
theorem test_illegal_words_refused :
    [0x0123, 0x5AB1, 0x8AB8, 0x8ABF, 0x9AB1, 0xE09D, 0xF075].map (fun n => legalWord (BitVec.ofNat 16 n)) =
      [false, false, false, false, false, false, false] := by decide

theorem test_short_font_refused : (Config.mk 0x050 [0xF0] none).wf = false := by decide

theorem test_font_in_program_area_refused : ({ defaultConfig with fontBase := 0x1B1 } : Config).wf = false := by decide

theorem test_default_config_wf : defaultConfig.wf = true := by decide

theorem test_image_of_3585_bytes_refused : imageFits (List.replicate 3585 0) = false := by
  unfold imageFits; rw [List.length_replicate]; decide

theorem test_image_of_3584_bytes_fits : imageFits (List.replicate 3584 0) = true := by
  unfold imageFits; rw [List.length_replicate]; decide

/-! ## Decoding: the words of 95 section 2.1, and R66's patterns -/

theorem test_decode_z : decode 0x0000 = .ok .halt ∧ decode 0x00E0 = .ok .clearScreen ∧ decode 0x00EE = .ok .ret :=
  ⟨rfl, rfl, rfl⟩

theorem test_decode_a : decode 0x10E0 = .ok (.jump 0x0E0) ∧ decode 0x2000 = .ok (.call 0x000) ∧
    decode 0xA000 = .ok (.loadI 0x000) ∧ decode 0xBFFF = .ok (.jumpOffset 0xFFF) := ⟨rfl, rfl, rfl, rfl⟩

theorem test_decode_xk : decode 0x3F00 = .ok (.skipEqImm 0xF 0x00) ∧ decode 0x4A42 = .ok (.skipNeImm 0xA 0x42) ∧
    decode 0x6F12 = .ok (.loadImm 0xF 0x12) ∧ decode 0x7000 = .ok (.addImm 0x0 0x00) ∧
    decode 0xC0FF = .ok (.randomAnd 0x0 0xFF) := ⟨rfl, rfl, rfl, rfl, rfl⟩

theorem test_decode_xy : decode 0x5AB0 = .ok (.skipEqReg 0xA 0xB) ∧ decode 0x9AB0 = .ok (.skipNeReg 0xA 0xB) ∧
    decode 0x8AB0 = .ok (.move 0xA 0xB) ∧ decode 0x8AB1 = .ok (.or 0xA 0xB) ∧ decode 0x8AB2 = .ok (.and 0xA 0xB) ∧
    decode 0x8AB3 = .ok (.xor 0xA 0xB) := ⟨rfl, rfl, rfl, rfl, rfl, rfl⟩

theorem test_decode_arithmetic : decode 0x8AB4 = .ok (.add 0xA 0xB) ∧ decode 0x8AB5 = .ok (.sub 0xA 0xB) ∧
    decode 0x8AB6 = .ok (.shiftRight 0xA 0xB) ∧ decode 0x8AB7 = .ok (.subN 0xA 0xB) ∧
    decode 0x8ABE = .ok (.shiftLeft 0xA 0xB) ∧ decode 0xDABF = .ok (.draw 0xA 0xB 0xF) := ⟨rfl, rfl, rfl, rfl, rfl, rfl⟩

theorem test_decode_keys_and_timers : decode 0xE09E = .ok (.skipKeyPressed 0x0) ∧
    decode 0xEFA1 = .ok (.skipKeyNotPressed 0xF) ∧ decode 0xF007 = .ok (.readDelay 0x0) ∧
    decode 0xFA0A = .ok (.waitForKeyPress 0xA) ∧ decode 0xF115 = .ok (.setDelay 0x1) ∧
    decode 0xF218 = .ok (.setSound 0x2) := ⟨rfl, rfl, rfl, rfl, rfl, rfl⟩

theorem test_decode_index_memory : decode 0xF31E = .ok (.addI 0x3) ∧ decode 0xF429 = .ok (.setIToFontDigit 0x4) ∧
    decode 0xF533 = .ok (.binaryCodeI 0x5) ∧ decode 0xFF55 = .ok (.copyRegistersToI 0xF) ∧
    decode 0xFF65 = .ok (.copyIToRegisters 0xF) := ⟨rfl, rfl, rfl, rfl, rfl⟩

theorem test_decode_errors : [0x0001, 0x0FFF, 0x5001, 0x8AB9, 0x9001, 0xE19F, 0xF01F].map (fun n =>
    match decode (BitVec.ofNat 16 n) with | .ok _ => true | .error _ => false) =
      [false, false, false, false, false, false, false] := by decide

/-- R46: `60 0A` is the word `600A`, not `0A60`. -/
theorem test_byte_order : decodeBytes [0x60, 0x0A, 0xFF] = .ok (.loadImm 0 0x0A, [0xFF]) := rfl

theorem test_table_word : decodeTableWord 16 0xD015 = some (.draw 0 1 5) := rfl

/-! ## One step of each instruction -/

/-- The state an outcome holds, the reset state where it holds none. -/
def next : Host.Outcome State Fault Refusal → State
  | .next s => s
  | .fault _ => State.reset
  | .refused _ => State.reset

/-- One step of the word at `pc`. -/
def run (w : Nat) (s : State) : State := next (step (s.withFetchWord 16 w))

/-- The reset state with three registers set: `V1`, `V2` and `VF`. -/
def regs (v1 v2 vf : Byte) : State := ((State.reset.setReg 1 v1).setReg 2 v2).setReg VF vf

/-- The reset state with `I` and the bytes of `mem[0x300..]`. -/
def mem300 (bs : List Byte) : State := ({ State.reset with i := 0x300 }.writeBytes 0x300 bs).1

/-- The reset state with one `Step` pending. -/
def withKey (k : Option Key) : State := { State.reset with host := [.step k 0xA7] }

theorem test_halt : (run 0x0000 { State.reset with pc := 0x208 }).mode = .halted ∧
    (run 0x0000 { State.reset with pc := 0x208 }).pc = 0x20A := by decide

theorem test_ret : (run 0x00EE { State.reset with stack := [0x206, 0x300] }).pc = 0x206 ∧
    (run 0x00EE { State.reset with stack := [0x206, 0x300] }).stack = [0x300] := by decide

theorem test_ret_underflow : (run 0x00EE State.reset).mode = .faulted ⟨.stackUnderflow, 0x200⟩ ∧
    (run 0x00EE State.reset).pc = 0x202 := by decide

theorem test_jump : (run 0x1204 State.reset).pc = 0x204 := by decide

theorem test_call : (run 0x2210 { State.reset with pc := 0x204 }).stack = [0x206] ∧
    (run 0x2210 { State.reset with pc := 0x204 }).pc = 0x210 := by decide

/-- F13 with `STACK_DEPTH = 1`, its second step. -/
theorem test_call_overflow :
    (run 0x2204 { State.reset with pc := 0x202, stack := [0x202], cfg := { defaultConfig with stackDepth := some 1 } }).mode =
      .faulted ⟨.stackOverflow, 0x202⟩ := by decide

theorem test_jump_offset : (run 0xBFFF (State.reset.setReg 0 0xFF)).pc = 0x10FE := by decide

theorem test_skip_eq_imm : (run 0x3142 (regs 0x42 0 0)).pc = 0x204 ∧ (run 0x3142 (regs 0x43 0 0)).pc = 0x202 := by decide

theorem test_skip_ne_imm : (run 0x4107 (regs 7 0 0)).pc = 0x202 ∧ (run 0x4107 (regs 8 0 0)).pc = 0x204 := by decide

theorem test_skip_eq_reg : (run 0x5120 (regs 9 9 0)).pc = 0x204 ∧ (run 0x5120 (regs 9 8 0)).pc = 0x202 := by decide

theorem test_skip_ne_reg : (run 0x9120 (regs 9 8 0)).pc = 0x204 ∧ (run 0x9120 (regs 9 9 0)).pc = 0x202 := by decide

/-- All 8 bits are compared: `V0 = 15` (hexadecimal) is not key `5`. -/
theorem test_skip_key_pressed : (run 0xE09E ((withKey (some 5)).setReg 0 0x05)).pc = 0x204 ∧
    (run 0xE09E ((withKey (some 5)).setReg 0 0x15)).pc = 0x202 := by decide

theorem test_skip_key_not_pressed : (run 0xE0A1 ((withKey (some 5)).setReg 0 0x05)).pc = 0x202 ∧
    (run 0xE0A1 ((withKey none).setReg 0 0x05)).pc = 0x204 := by decide

theorem test_load_imm : (run 0x6F12 State.reset).reg VF = 0x12 := by decide

theorem test_add_imm_wraps : (run 0x7105 (regs 0xFE 0 0x77)).reg 1 = 0x03 ∧
    (run 0x7105 (regs 0xFE 0 0x77)).reg VF = 0x77 := by decide

theorem test_move : (run 0x8120 (regs 0x11 0x22 0)).reg 1 = 0x22 := by decide

theorem test_or : (run 0x8121 (regs 0x55 0x33 0x77)).reg 1 = 0x77 ∧
    (run 0x8121 (regs 0x55 0x33 0x77)).reg VF = 0x77 := by decide

theorem test_and : (run 0x8122 (regs 0x55 0x33 0x77)).reg 1 = 0x11 := by decide

theorem test_xor : (run 0x8123 (regs 0x55 0x33 0x77)).reg 1 = 0x66 := by decide

theorem test_add_carry : (run 0x8124 (regs 0xFA 0x0A 0x77)).reg 1 = 0x04 ∧
    (run 0x8124 (regs 0xFA 0x0A 0x77)).reg VF = 1 := by decide

/-- `8F14`: the result stands. -/
theorem test_add_into_VF : (run 0x8F14 (regs 0x64 0 0xC8)).reg VF = 0x2C := by decide

theorem test_sub_borrow : (run 0x8125 (regs 3 5 0x77)).reg 1 = 0xFE ∧ (run 0x8125 (regs 3 5 0x77)).reg VF = 0 := by decide

/-- `8F15`: the flag stands. -/
theorem test_sub_into_VF : (run 0x8F15 (regs 3 0 5)).reg VF = 1 := by decide

theorem test_shift_right : (run 0x8126 (regs 3 0xAA 0)).reg 1 = 1 ∧ (run 0x8126 (regs 3 0xAA 0)).reg VF = 1 := by decide

theorem test_subN : (run 0x8127 (regs 3 5 0x77)).reg 1 = 2 ∧ (run 0x8127 (regs 3 5 0x77)).reg VF = 1 := by decide

/-- D11: equal operands take the else path. -/
theorem test_subN_short_circuit : (run 0x8127 (regs 7 7 0x77)).reg 1 = 7 ∧
    (run 0x8127 (regs 7 7 0x77)).reg VF = 0 := by decide

theorem test_shift_left : (run 0x812E (regs 0x81 0 0)).reg 1 = 2 ∧ (run 0x812E (regs 0x81 0 0)).reg VF = 1 := by decide

theorem test_random : (run 0xC30F (withKey none)).reg 3 = 0x07 := by decide

theorem test_clear_screen : (run 0x00E0 { State.reset with fb := Display.toggle State.reset.fb 3 4 }).pixel 3 4 = false ∧
    (run 0x00E0 State.reset).frameReady = true := by decide

/-- T6: a sprite at column 60 wraps to columns 0 to 3. -/
theorem test_draw_wraps : (List.finRange 64).filter (fun c => (run 0xD011 ((mem300 [0xFF]).setReg 0 60)).pixel c 0) =
    [0, 1, 2, 3, 60, 61, 62, 63] := by decide

/-- `D012` with `80 80` and (0,0) set: only (0,1) is left, and the collision of the first row is kept. -/
theorem test_draw_collision :
    (run 0xD012 { mem300 [0x80, 0x80] with fb := Display.toggle State.reset.fb 0 0 }).pixel 0 0 = false ∧
    (run 0xD012 { mem300 [0x80, 0x80] with fb := Display.toggle State.reset.fb 0 0 }).reg VF = 1 := by decide

theorem test_read_delay : (run 0xF307 { State.reset with dt := 0x2A }).reg 3 = 0x2A := by decide

theorem test_set_delay : (run 0xF215 (regs 0 0x3C 0)).dt = 0x3C := by decide

theorem test_set_sound : (run 0xF118 (regs 5 0 0)).st = 5 := by decide

theorem test_wait_for_key : (run 0xF50A (withKey (some 7))).reg 5 = 7 ∧
    (run 0xF50A (withKey none)).mode = .waiting 5 := by decide

theorem test_load_i : (run 0xAFFF State.reset).i = 0xFFF := by decide

theorem test_add_i_wraps : (run 0xF11E { regs 0x20 0 5 with i := 0xFFF0 }).i = 0x0010 ∧
    (run 0xF11E { regs 0x20 0 5 with i := 0xFFF0 }).reg VF = 5 := by decide

theorem test_font_digit : (run 0xF129 (regs 0x0A 0 0)).i = 0x082 ∧ (run 0xF129 (regs 0xFF 0 0)).i = 0x54B := by decide

theorem test_bcd : ((run 0xF133 { regs 205 0 0 with i := 0x300 }).readBytes 0x300 4).1 = [2, 0, 5, 0] := by decide

theorem test_bcd_out_of_bounds :
    (run 0xF133 { regs 255 0 0 with i := 0xFFE }).mode = .faulted ⟨.memoryBoundsError 4096, 0x200⟩ ∧
    ((run 0xF133 { regs 255 0 0 with i := 0xFFE }).readBytes 0xFFE 2).1 = [2, 5] := by decide

theorem test_store_block : ((run 0xF255 { regs 0xBB 0xCC 0 with i := 0x400 }).readBytes 0x400 4).1 =
    [0x00, 0xBB, 0xCC, 0x00] := by decide

theorem test_load_block : (run 0xF165 (mem300 [0x11, 0x22, 0x33])).reg 1 = 0x22 ∧
    (run 0xF165 (mem300 [0x11, 0x22, 0x33])).reg 2 = 0 := by decide

/-- `F365` at `FFE`: two registers are loaded, then the read at 4096 faults. -/
theorem test_load_block_out_of_bounds :
    (run 0xF365 { mem300 [] with i := 0xFFE }).mode = .faulted ⟨.memoryBoundsError 4096, 0x200⟩ := by decide

/-! ## The other operations -/

theorem test_tick : (next (step { State.reset with dt := 3, st := 0, host := [.tick] })).dt = 2 ∧
    (next (step { State.reset with dt := 3, st := 0, host := [.tick] })).st = 0 := by decide

theorem test_tick_faulted :
    (next (step { State.reset with dt := 0x37, mode := .faulted ⟨.stackUnderflow, 0x200⟩, host := [.tick] })).dt = 0x37 := by
  decide

theorem test_fetch_at_4095 : (next (step { State.reset with pc := 0xFFF })).mode =
    .faulted ⟨.memoryBoundsError 4096, 0xFFF⟩ := by decide

theorem test_init_odd_image : ((next (step { State.reset with host := [.init [0x12, 0x34, 0x56]] })).readBytes 0x200 4).1 =
    [0x12, 0x34, 0x56, 0x00] := by decide

/-- R182: from reset with nothing placed, the first step halts. -/
theorem test_empty_memory_halts : (next (step State.reset)).mode = .halted := by decide

theorem test_waiting_step : (next (step { withKey (some 0xF) with mode := .waiting 5 })).reg 5 = 0x0F := by decide

/-! ## Witnesses: the hypotheses of each obligation hold together somewhere -/

/-- The reset state with a word at `0x200` and a `Step` pending. -/
def placed (hi lo : Byte) : State := { State.reset with mem := [(0x200, hi), (0x201, lo)], host := [.step (some 5) 0xA7] }

/-- The reset state run into a fault. -/
def faultedState : State := { State.reset with mode := .faulted ⟨.stackUnderflow, 0x200⟩ }

theorem noInit_of_nil {s : State} (h : s.host = []) : s.noInit := fun image rest e => by rw [h] at e; cases e

theorem noInit_of_step {s : State} {k b rest} (h : s.host = .step k b :: rest) : s.noInit :=
  fun image rest' e => by rw [h] at e; cases e

theorem witness_StepRunsDecodedInstruction : (placed 0x60 0x0A).mode = .running ∧
    (placed 0x60 0x0A).readByte 0x200 = some 0x60 ∧ (placed 0x60 0x0A).readByte 0x201 = some 0x0A ∧
    decode (wordOfBytes 0x60 0x0A) = .ok (.loadImm 0 0x0A) ∧ (placed 0x60 0x0A).host = [.step (some 5) 0xA7] ∧
    State.reset.host = [] ∧ State.reset.readByte 0x200 = some 0x00 ∧ State.reset.readByte 0x201 = some 0x00 ∧
    decode (wordOfBytes 0x00 0x00) = .ok .halt := by decide

theorem witness_FetchOutOfBoundsFaults : (withKey none).mode = .running ∧ (withKey none).host = [.step none 0xA7] ∧
    4095 ≤ ({ withKey none with pc := 0xFFF } : State).pc.toNat := by decide

theorem witness_IllegalWordFaults : (placed 0x50 0x01).mode = .running ∧
    (placed 0x50 0x01).host = [.step (some 5) 0xA7] ∧ (placed 0x50 0x01).readByte 0x200 = some 0x50 ∧
    (placed 0x50 0x01).readByte 0x201 = some 0x01 ∧ legalWord (wordOfBytes 0x50 0x01) = false := by decide

theorem witness_FaultRecordHoldsFetchAddress :
    ∃ t, (placed 0x00 0xEE).mode = .running ∧ (placed 0x00 0xEE).noInit ∧ step (placed 0x00 0xEE) = .next t ∧
      t.mode = .faulted ⟨.stackUnderflow, 0x200⟩ :=
  ⟨_, rfl, noInit_of_step rfl, rfl, by decide⟩

theorem witness_FaultedIsAbsorbing : faultedState.mode = .faulted ⟨.stackUnderflow, 0x200⟩ ∧ faultedState.noInit :=
  ⟨rfl, noInit_of_nil rfl⟩

theorem witness_HaltedStepChangesNothing : ({ withKey none with mode := .halted } : State).mode = .halted ∧
    ({ withKey none with mode := .halted } : State).host = [.step none 0xA7] := ⟨rfl, rfl⟩

theorem witness_TickCountsBothTimersDown : ({ State.reset with host := [.tick] } : State).host = [.tick] ∧
    (∀ f, ({ State.reset with host := [.tick] } : State).mode ≠ .faulted f) ∧
    ({ faultedState with host := [.tick] } : State).host = [.tick] ∧
    ({ faultedState with host := [.tick] } : State).mode = .faulted ⟨.stackUnderflow, 0x200⟩ :=
  ⟨rfl, fun _ h => (nomatch h), rfl, rfl⟩

theorem witness_WaitingStepPollsOnce : ({ withKey (some 0xF) with mode := .waiting 5 } : State).mode = .waiting 5 ∧
    ({ withKey (some 0xF) with mode := .waiting 5 } : State).host = [.step (some 0xF) 0xA7] ∧
    ({ withKey none with mode := .waiting 5 } : State).host = [.step none 0xA7] := ⟨rfl, rfl, rfl⟩

theorem witness_InitLoadsImageIntoFreshMachine :
    ({ State.reset with host := [.init [0x12]] } : State).host = [.init [0x12]] ∧ [(0x12 : Byte)].length ≤ 3584 ∧
    ({ State.reset with host := [.init [0x12]] } : State).cfg.wf = true := by decide

theorem witness_InitRejectsTooLargeImage :
    (List.replicate 3585 (0 : Byte)).length > 3584 ∧ (List.replicate 3584 (0 : Byte)).length ≤ 3584 := by
  simp only [List.length_replicate]; decide

theorem witness_StepKeepsInvariant : State.reset.Inv ∧ ∃ t, step State.reset = .next t :=
  ⟨⟨by decide, ⟨List.Pairwise.nil, fun _ h => (nomatch h)⟩, by decide, fun _ h => (nomatch h), fun _ h => (nomatch h),
    fun _ h => (nomatch h)⟩, _, rfl⟩

theorem witness_TimersChangeOnlyByTheirWriters :
    (∃ t, exec (.loadImm 0 1) State.reset = .next t) ∧
    ∃ t, step (State.reset.setReg 2 0x3C |>.withFetchWord 16 0xF215) = .next t ∧
      (State.reset.setReg 2 0x3C |>.withFetchWord 16 0xF215).noInit ∧
      (∀ rest, (State.reset.setReg 2 0x3C |>.withFetchWord 16 0xF215).host ≠ .tick :: rest) ∧
      t.dt ≠ (State.reset.setReg 2 0x3C |>.withFetchWord 16 0xF215).dt :=
  ⟨⟨_, rfl⟩, _, rfl, noInit_of_nil rfl, fun _ h => (nomatch h), by decide⟩

theorem witness_RegistersChangeOnlyWhereNamed : ∃ t, exec (.add 1 2) State.reset = .next t ∧
    (3 : Reg) ∉ (Instr.add 1 2).dest ∧ ¬((Instr.add 1 2).writesFlag = true ∧ (3 : Reg) = VF) :=
  ⟨_, rfl, by decide, by decide⟩

theorem witness_FlagWritersSetVF : (1 : Reg) ≠ VF ∧
    ∃ t, exec (.draw 1 2 1) State.reset = .next t ∧ t.mode = State.reset.mode ∧ ∀ f, State.reset.mode ≠ .faulted f :=
  ⟨by decide, _, rfl, by decide, fun _ h => (nomatch h)⟩

theorem witness_StackAndDisplayHaveTheirOwnInstructions : ∃ t, exec (.loadImm 0 1) State.reset = .next t ∧
    (∀ nnn, Instr.loadImm 0 1 ≠ .call nnn) ∧ Instr.loadImm 0 1 ≠ .ret ∧ Instr.loadImm 0 1 ≠ .clearScreen ∧
    ∀ x y n, Instr.loadImm 0 1 ≠ .draw x y n :=
  ⟨_, rfl, fun _ h => (nomatch h), fun h => (nomatch h), fun h => (nomatch h), fun _ _ _ h => (nomatch h)⟩

theorem witness_MemoryChangesOnlyAtStoredBytes : ∃ t, exec (.binaryCodeI 1) (mem300 []) = .next t ∧
    ¬((mem300 []).effAddr 0 ≤ 0x303 ∧ 0x303 < (mem300 []).effAddr 0 + (Instr.binaryCodeI 1).storeCount) :=
  ⟨_, rfl, by decide⟩

theorem witness_IndexChangesOnlyByItsWriters : ∃ t, exec (.copyRegistersToI 3) (mem300 []) = .next t ∧
    (∀ nnn, Instr.copyRegistersToI 3 ≠ .loadI nnn) ∧ (∀ x, Instr.copyRegistersToI 3 ≠ .addI x) ∧
    ∀ x, Instr.copyRegistersToI 3 ≠ .setIToFontDigit x :=
  ⟨_, rfl, fun _ h => (nomatch h), fun _ h => (nomatch h), fun _ h => (nomatch h)⟩

theorem witness_PixelsReachProgramOnlyThroughVF : ∃ t, exec (.draw 0 1 5) State.reset = .next t := ⟨_, rfl⟩

theorem witness_DrawsAreSampledOnlyByTheirInstructions : ∃ t, exec (.loadImm 0 1) State.reset = .next t ∧
    (∀ x, Instr.loadImm 0 1 ≠ .skipKeyPressed x) ∧ (∀ x, Instr.loadImm 0 1 ≠ .skipKeyNotPressed x) ∧
    (∀ x, Instr.loadImm 0 1 ≠ .waitForKeyPress x) ∧ ∀ x kk, Instr.loadImm 0 1 ≠ .randomAnd x kk :=
  ⟨_, rfl, fun _ h => (nomatch h), fun _ h => (nomatch h), fun _ h => (nomatch h), fun _ _ h => (nomatch h)⟩

theorem witness_EachInstructionRaisesOneKindOfFault : ∃ t, exec .ret { State.reset with pc := 0x202 } = .next t ∧
    (∀ g, ({ State.reset with pc := 0x202 } : State).mode ≠ .faulted g) ∧ t.mode = .faulted ⟨.stackUnderflow, 0x200⟩ :=
  ⟨_, rfl, fun _ h => (nomatch h), by decide⟩

theorem witness_StoreIsSeenByNextFetch : 1 ≤ (1 : Reg).val ∧ ({ mem300 [] with pc := 0x300 } : State).i = 0x300 ∧
    ({ mem300 [] with pc := 0x300 } : State).pc = 0x300 ∧ (mem300 []).i.toNat + (1 : Reg).val < 4096 := by decide

theorem witness_RetPopsIntoPc : ({ State.reset with stack := [0x206] } : State).stack = [0x206] ∧
    State.reset.stack = [] := ⟨rfl, rfl⟩

/-- A machine with a call stack of one entry, empty and full. -/
theorem witness_CallPushesPc :
    (∀ d, (State.fresh { defaultConfig with stackDepth := some 1 }).cfg.stackDepth = some d →
      (State.fresh { defaultConfig with stackDepth := some 1 }).stack.length < d) ∧
    ({ State.fresh { defaultConfig with stackDepth := some 1 } with stack := [0x202] } : State).cfg.stackDepth = some 1 ∧
    1 ≤ ({ State.fresh { defaultConfig with stackDepth := some 1 } with stack := [0x202] } : State).stack.length :=
  ⟨fun d h => by cases h; decide, rfl, by decide⟩

/-- `V[x]` equal to the key, and above every key. -/
theorem witness_KeySkipsCompareWholeRegister :
    (∃ c : Key, ({ regs 5 0 0 with key := some 5 } : State).key = some c ∧ c.toNat = ((regs 5 0 0).reg 1).toNat) ∧
    (∀ c : Key, ({ regs 0x15 0 0 with key := some 5 } : State).key = some c → c.toNat ≠ ((regs 0x15 0 0).reg 1).toNat) :=
  ⟨⟨5, rfl, by decide⟩, fun c h => by cases h; decide⟩

theorem witness_AddWritesSumAndCarry : (0 : Reg) ≠ VF := by decide

theorem witness_SubNShortCircuits : ((regs 3 5 0).reg 2).toNat > ((regs 3 5 0).reg 1).toNat ∧
    ((regs 7 7 0).reg 2).toNat ≤ ((regs 7 7 0).reg 1).toNat ∧ (1 : Reg) ≠ VF := by decide

/-- A sprite that ends at the last byte of memory, and `n = 0` with `I` outside memory. -/
theorem witness_DrawXorsSpriteAndReportsCollision :
    ({ State.reset with i := 0xFF1 } : State).i.toNat + (15 : Fin 16).val ≤ 4096 ∧ (0 : Fin 16) = 0 ∧
    (∃ c r, ({ mem300 [0x80] with fb := Display.toggle State.reset.fb 0 0 } : State).pixel c r = true ∧
      ({ mem300 [0x80] with fb := Display.toggle State.reset.fb 0 0 } : State).spriteBit 0 1 1 c r = true) ∧
    (∀ c r, State.reset.pixel c r = true → State.reset.spriteBit 0 1 1 c r = false) :=
  ⟨by decide, rfl, ⟨0, 0, by decide, by decide⟩, fun c r h => by
    simp [State.pixel, Display.pixel, State.reset, State.fresh] at h⟩

/-- One byte too far, and wholly outside. -/
theorem witness_DrawOutOfBoundsKeepsDrawnRows : (15 : Fin 16) ≠ 0 ∧
    4096 < ({ State.reset with i := 0xFF2 } : State).i.toNat + (15 : Fin 16).val ∧
    4096 < ({ State.reset with i := 0xFFFF } : State).i.toNat + (1 : Fin 16).val := by decide

theorem witness_DrawingTwiceRestoresDisplay : (0 : Reg) ≠ VF ∧ (1 : Reg) ≠ VF ∧
    State.reset.i.toNat + (15 : Fin 16).val ≤ 4096 := by decide

theorem witness_WaitForKeyStoresOrWaits : ({ State.reset with key := some 0xF } : State).key = some 0xF ∧
    State.reset.key = none := ⟨rfl, rfl⟩

theorem witness_FontDigitAddress : State.reset.cfg.wf = true ∧
    ({ defaultConfig with fontBase := 0x1B0 } : Config).wf = true := by decide

/-- The four clauses at their boundaries. -/
theorem witness_BcdStoresDecimalDigits : ({ State.reset with i := 0xFFD } : State).i.toNat ≤ 4093 ∧
    ({ State.reset with i := 0xFFE } : State).i.toNat = 4094 ∧ ({ State.reset with i := 0xFFF } : State).i.toNat = 4095 ∧
    4096 ≤ ({ State.reset with i := 0x1000 } : State).i.toNat := by decide

/-- The last block that fits, for the block store, the block load and the round trip. -/
theorem witness_BlockInBounds : ({ State.reset with i := 0xFF0 } : State).i.toNat + (15 : Reg).val < 4096 := by decide

/-- The first block that does not fit, for the block store and the block load. -/
theorem witness_BlockOutOfBounds : 4096 ≤ ({ State.reset with i := 0xFF1 } : State).i.toNat + (15 : Reg).val ∧
    4096 ≤ ({ State.reset with i := 0xFFFF } : State).i.toNat + (0 : Reg).val := by decide

/-- A pixel inside a blitted row that wraps, one beside it in the row, and one in another row; a collision and none. -/
theorem witness_BlitRowTogglesUnderOneBits :
    (3 : Fin 64).val = ((60 : Fin 64).val + 7) % 64 ∧ (∀ k, k < 8 → (4 : Fin 64).val ≠ ((60 : Fin 64).val + k) % 64) ∧
    (1 : Fin 32) ≠ 0 ∧ (blitRow (Display.toggle Display.clear 3 0) 60 0 0x01).2 = true ∧
    (blitRow (Display.toggle Display.clear 3 0) 60 0 0xFE).2 = false := by decide

/-- The boundaries of the font, of an image of one byte and of memory. -/
theorem witness_InitLoadsImageClauses : (0 : Nat) < [(0x12 : Byte)].length ∧
    (∀ a ∈ [0x000, 0x04F, 0x0A0, 0x1FF, 0x201, 0xFFF], a < 4096 ∧ ¬(State.reset.cfg.fontBase ≤ a ∧
      a < State.reset.cfg.fontBase + 80) ∧ ¬(0x200 ≤ a ∧ a < 0x200 + [(0x12 : Byte)].length)) := by decide

/-- A register inside the block of a block transfer, and one above it. -/
theorem witness_StoreThenLoadReproducesRegisters : State.reset.i.toNat + (3 : Reg).val < 4096 ∧ (3 : Reg) ≤ 3 ∧
    (3 : Reg) < 4 := by decide

end Sys2Proof.Tests
end

section
/-! What each instruction may write, said once for all of them: a frame for every constructor of Instr. A statement about
what an instruction leaves unchanged is read off from it. -/

namespace Sys2Proof.Machine

/-- What an instruction, run from `s`, may write, on its regular path and on its fault path. -/
def execWrites (s : State) : Instr → Writes
  | .halt => { mode := true }
  | .clearScreen => { fb := true, frameReady := true }
  | .ret | .call _ => { pc := true, stack := true, mode := true }
  | .jump _ | .jumpOffset _ | .skipEqImm _ _ | .skipNeImm _ _ | .skipEqReg _ _ | .skipNeReg _ _ | .skipKeyPressed _
  | .skipKeyNotPressed _ => { pc := true }
  | .loadImm x _ | .addImm x _ | .move x _ | .or x _ | .and x _ | .xor x _ | .randomAnd x _ | .readDelay x =>
    { regs := [x] }
  | .add x _ | .sub x _ | .shiftRight x _ | .subN x _ | .shiftLeft x _ => { regs := [x, VF] }
  | .loadI _ | .addI _ | .setIToFontDigit _ => { i := true }
  | .draw _ _ _ => { regs := [VF], fb := true, mode := true, frameReady := true }
  | .waitForKeyPress x => { regs := [x], mode := true }
  | .setDelay _ => { dt := true }
  | .setSound _ => { st := true }
  | .binaryCodeI _ => { mode := true, memFrom := s.effAddr 0, memCount := 3 }
  | .copyRegistersToI x => { mode := true, memFrom := s.effAddr 0, memCount := x.val + 1 }
  | .copyIToRegisters x => { regs := (List.finRange 16).filter fun r => decide (r ≤ x), mode := true }

/-! ## Frames along a chain of updates: each rule names one more field -/

section
variable {w : Writes} {s t u : State}

theorem Frame.refl (s : State) : Frame {} s s := by simp [Frame]

theorem Frame.withI (h : Frame w s t) (a : Word) : Frame { w with i := true } s { t with i := a } :=
  let ⟨hreg, _, hrest⟩ := h
  ⟨hreg, nofun, hrest⟩

theorem Frame.withPc (h : Frame w s t) (a : Word) : Frame { w with pc := true } s { t with pc := a } :=
  let ⟨hreg, hi, _, hrest⟩ := h
  ⟨hreg, hi, nofun, hrest⟩

theorem Frame.withDt (h : Frame w s t) (b : Byte) : Frame { w with dt := true } s { t with dt := b } :=
  let ⟨hreg, hi, hpc, _, hrest⟩ := h
  ⟨hreg, hi, hpc, nofun, hrest⟩

theorem Frame.withSt (h : Frame w s t) (b : Byte) : Frame { w with st := true } s { t with st := b } :=
  let ⟨hreg, hi, hpc, hdt, _, hrest⟩ := h
  ⟨hreg, hi, hpc, hdt, nofun, hrest⟩

theorem Frame.withStack (h : Frame w s t) (l : List Word) : Frame { w with stack := true } s { t with stack := l } :=
  let ⟨hreg, hi, hpc, hdt, hst, _, hrest⟩ := h
  ⟨hreg, hi, hpc, hdt, hst, nofun, hrest⟩

theorem Frame.withDisplay (h : Frame w s t) (d : Display) (z : Bool) :
    Frame { w with fb := true, frameReady := true } s { t with fb := d, frameReady := z } :=
  let ⟨hreg, hi, hpc, hdt, hst, hstack, _, hmode, _, hrest⟩ := h
  ⟨hreg, hi, hpc, hdt, hst, hstack, nofun, hmode, nofun, hrest⟩

theorem Frame.withMode (h : Frame w s t) (m : Mode) : Frame { w with mode := true } s { t with mode := m } :=
  let ⟨hreg, hi, hpc, hdt, hst, hstack, hfb, _, hrest⟩ := h
  ⟨hreg, hi, hpc, hdt, hst, hstack, hfb, nofun, hrest⟩

theorem Frame.endAccess (h : Frame w s t) (e : Option Nat) : Frame { w with mode := true } s (t.endAccess e) := by
  cases e with
  | none => exact h.withMode t.mode
  | some a => exact h.withMode _

/-- A frame of the state that an outcome answers is a frame of the outcome. -/
theorem Frame.of_next (h : Frame w s u) (e : (.next u : Host.Outcome State Fault Refusal) = .next t) : Frame w s t :=
  Host.Outcome.next.inj e ▸ h

end

theorem frame_loadBlock (s : State) (a : Nat) (x : Reg) :
    Frame { regs := (List.finRange 16).filter fun r => decide (r ≤ x) } s
      (s.loadRegs (s.readBytes a (x.val + 1)).1) := by
  simp +contextual [Frame, State.reg_loadBlock]

/-! ## The instructions with more than one path -/

theorem frame_execRet {s t : State} (h : execRet s = .next t) :
    Frame { pc := true, stack := true, mode := true } s t := by
  refine Frame.of_next ?_ h
  split
  · simp [Frame]
  · next a s' hp =>
    obtain ⟨rest, -, rfl⟩ := State.pop_eq_some hp
    exact (((Frame.refl s).withStack rest).withPc a).withMode s.mode

theorem frame_execCall {nnn : Addr} {s t : State} (h : execCall nnn s = .next t) :
    Frame { pc := true, stack := true, mode := true } s t := by
  refine Frame.of_next ?_ h
  split
  · simp [Frame]
  · next s' hp =>
    obtain ⟨rfl, -⟩ := State.push_eq_some hp
    exact (((Frame.refl s).withStack (s.pc :: s.stack)).withPc (addrOperand nnn)).withMode s.mode

theorem frame_execSubN {x y : Reg} {s t : State} (h : execSubN x y s = .next t) : Frame { regs := [x, VF] } s t := by
  refine Frame.of_next ?_ h
  split
  · exact frame_writeResultThenFlag s x _ 1
  · simp +contextual [Frame, State.reg_setReg]

theorem frame_execDraw {x y : Reg} {n : Fin 16} {s t : State} (h : execDraw x y n s = .next t) :
    Frame { regs := [VF], fb := true, mode := true, frameReady := true } s t := by
  refine Frame.of_next ?_ h
  split
  · exact ((frame_setReg s VF _).withDisplay _ true).withMode s.mode
  · simp [Frame]

theorem frame_execWaitForKeyPress {x : Reg} {s t : State} (h : execWaitForKeyPress x s = .next t) :
    Frame { regs := [x], mode := true } s t := by
  refine Frame.of_next ?_ h
  split
  · exact (frame_setReg s x _).withMode s.mode
  · simp [Frame]

/-- The frame of every instruction: it changes nothing but what `execWrites` names. -/
theorem exec_frame {i : Instr} {s t : State} (h : exec i s = .next t) : Frame (execWrites s i) s t := by
  cases i with
  | halt => exact ((Frame.refl s).withMode _).of_next h
  | clearScreen => exact ((Frame.refl s).withDisplay _ _).of_next h
  | ret => exact frame_execRet h
  | call nnn => exact frame_execCall h
  | jump nnn => exact ((Frame.refl s).withPc _).of_next h
  | jumpOffset nnn => exact ((Frame.refl s).withPc _).of_next h
  | skipEqImm x kk => exact (frame_skipIf s _).of_next h
  | skipNeImm x kk => exact (frame_skipIf s _).of_next h
  | skipEqReg x y => exact (frame_skipIf s _).of_next h
  | skipNeReg x y => exact (frame_skipIf s _).of_next h
  | skipKeyPressed x => exact (frame_skipIf s _).of_next h
  | skipKeyNotPressed x => exact (frame_skipIf s _).of_next h
  | loadImm x kk => exact (frame_setReg s x _).of_next h
  | addImm x kk => exact (frame_setReg s x _).of_next h
  | move x y => exact (frame_setReg s x _).of_next h
  | or x y => exact (frame_setReg s x _).of_next h
  | and x y => exact (frame_setReg s x _).of_next h
  | xor x y => exact (frame_setReg s x _).of_next h
  | randomAnd x kk => exact (frame_setReg s x _).of_next h
  | readDelay x => exact (frame_setReg s x _).of_next h
  | add x y => exact (frame_writeFlagThenResult s x _ _).of_next h
  | shiftRight x y => exact (frame_writeFlagThenResult s x _ _).of_next h
  | shiftLeft x y => exact (frame_writeFlagThenResult s x _ _).of_next h
  | sub x y => exact (frame_writeResultThenFlag s x _ _).of_next h
  | subN x y => exact frame_execSubN h
  | loadI nnn => exact ((Frame.refl s).withI _).of_next h
  | addI x => exact ((Frame.refl s).withI _).of_next h
  | setIToFontDigit x => exact ((Frame.refl s).withI _).of_next h
  | draw x y n => exact frame_execDraw h
  | waitForKeyPress x => exact frame_execWaitForKeyPress h
  | setDelay x => exact ((Frame.refl s).withDt _).of_next h
  | setSound x => exact ((Frame.refl s).withSt _).of_next h
  | binaryCodeI x => exact ((frame_writeBytes s _ (decimalDigits (s.reg x))).endAccess _).of_next h
  | copyRegistersToI x =>
    have hblock := frame_writeBytes s (s.effAddr 0) (s.regBlock x)
    rw [State.regBlock_length] at hblock
    exact (hblock.endAccess _).of_next h
  | copyIToRegisters x => exact ((frame_loadBlock s _ x).endAccess _).of_next h

end Sys2Proof.Machine
end

section
/-! The call stack and the display each have their own instructions (spec/10_state.md R17, R19, R24). -/

namespace Sys2Proof.Machine

theorem execWrites_stack (s : State) {i : Instr} (hcall : ∀ nnn, i ≠ .call nnn) (hret : i ≠ .ret) :
    (execWrites s i).stack = false := by
  cases i with
  | call nnn => exact absurd rfl (hcall nnn)
  | ret => exact absurd rfl hret
  | _ => rfl

theorem execWrites_display (s : State) {i : Instr} (hcls : i ≠ .clearScreen) (hdrw : ∀ x y n, i ≠ .draw x y n) :
    (execWrites s i).fb = false ∧ (execWrites s i).frameReady = false := by
  cases i with
  | clearScreen => exact absurd rfl hcls
  | draw x y n => exact absurd rfl (hdrw x y n)
  | _ => exact ⟨rfl, rfl⟩

/-- Settles O22: the frame of the instruction names the stack for `CALL` and `RET` alone, the display and the event for
`CLS` and `DRW` alone. -/
theorem stackAndDisplayHaveTheirOwnInstructions : Obligations.StackAndDisplayHaveTheirOwnInstructions := by
  intro i s t h
  obtain ⟨-, -, -, -, -, hstack, hpixel, -, hready, -⟩ := exec_frame h
  refine ⟨fun hcall hret => hstack (execWrites_stack s hcall hret), fun hcls hdrw => ?_⟩
  obtain ⟨hfb, hev⟩ := execWrites_display s hcls hdrw
  exact ⟨hpixel hfb, hready hev⟩

end Sys2Proof.Machine
end

section
/-! The operands of control transfer as numbers, and the pop of a stack that is not empty (spec/30_encoding.md
R64, spec/10_state.md R17). -/

namespace Sys2Proof.Machine

@[simp] theorem addrOperand_toNat (nnn : Addr) : (addrOperand nnn).toNat = nnn.toNat :=
  BitVec.toNat_setWidth_of_le (by decide)

@[simp] theorem State.regWord_toNat (s : State) (r : Reg) : (s.regWord r).toNat = (s.reg r).toNat :=
  BitVec.toNat_setWidth_of_le (by decide)

/-- A byte and a 12-bit address add up to less than 65536, so the sum of R86 is not reduced. -/
theorem State.regWord_add_addrOperand_toNat (s : State) (r : Reg) (nnn : Addr) :
    (s.regWord r + addrOperand nnn).toNat = (s.reg r).toNat + nnn.toNat := by
  have hreg : (s.reg r).toNat < 256 := (s.reg r).isLt
  have haddr : nnn.toNat < 4096 := nnn.isLt
  have hfits : (s.regWord r).toNat + (addrOperand nnn).toNat < 2 ^ 16 := by
    rw [State.regWord_toNat, addrOperand_toNat]
    omega
  rw [BitVec.toNat_add_of_lt hfits, State.regWord_toNat, addrOperand_toNat]

theorem State.pop_of_stack_eq_cons {s : State} {a : Word} {rest : List Word} (h : s.stack = a :: rest) :
    s.pop = some (a, { s with stack := rest }) := by
  simp [State.pop, h]

end Sys2Proof.Machine
end

section
/-! Return and the two jumps (spec/40_control_flow.md R83, R84, R86). -/

namespace Sys2Proof.Machine

theorem exec_ret_of_stack_eq_cons {s : State} {a : Word} {rest : List Word} (h : s.stack = a :: rest) :
    exec .ret s = .next { s with stack := rest, pc := a } := by
  simp [exec, execRet, State.pop_of_stack_eq_cons h]

theorem exec_ret_of_stack_eq_nil {s : State} (h : s.stack = []) :
    exec .ret s = .next (s.raiseHere .stackUnderflow) := by
  simp [exec, execRet, (State.pop_eq_none_iff s).mpr h]

theorem exec_jump (nnn : Addr) (s : State) : exec (.jump nnn) s = .next { s with pc := addrOperand nnn } := rfl

theorem exec_jumpOffset (nnn : Addr) (s : State) :
    exec (.jumpOffset nnn) s = .next { s with pc := s.regWord 0 + addrOperand nnn } := rfl

theorem faultedBy_raiseHere (s : State) (c : FaultCause) : FaultedBy c (s.raiseHere c) :=
  ⟨_, State.raiseHere_mode s c, rfl⟩

/-- Settles O30, by the two cases of the stack. -/
theorem retPopsIntoPc : Obligations.RetPopsIntoPc := by
  intro s
  constructor
  · intro a rest hcons
    exact ⟨_, exec_ret_of_stack_eq_cons hcons, rfl, rfl, ((Frame.refl s).withStack rest).withPc a⟩
  · intro hnil
    exact ⟨_, exec_ret_of_stack_eq_nil hnil, faultedBy_raiseHere s _, frame_raiseHere s _⟩

/-- Settles O31: the only update is that of `pc`, to the zero-extended address. -/
theorem jumpSetsPc : Obligations.JumpSetsPc := fun s nnn =>
  ⟨_, exec_jump nnn s, addrOperand_toNat nnn, (Frame.refl s).withPc _⟩

/-- Settles O33: the only update is that of `pc`, to a sum that fits in 16 bits. -/
theorem jumpOffsetAddsV0 : Obligations.JumpOffsetAddsV0 := fun s nnn =>
  ⟨_, exec_jumpOffset nnn s, s.regWord_add_addrOperand_toNat 0 nnn, (Frame.refl s).withPc _⟩

end Sys2Proof.Machine
end

section
/-! One row of the XOR-blit engine, its bits named by their position in the row byte (spec/43_display.md R121). -/

namespace Sys2Proof.Machine

variable {x0 c : Fin 64} {k : Nat}

/-- Distance from the row's first column, counted to the right with wrap-around, inverts the wrapping of R121. -/
theorem rowDistance_eq_iff (hk : k < 8) : (c.val + 64 - x0.val) % 64 = k ↔ c.val = (x0.val + k) % 64 := by
  omega

theorem rowBitAt_of_col (b : Byte) (hk : k < 8) (hc : c.val = (x0.val + k) % 64) :
    rowBitAt x0 b c = b.getLsbD (7 - k) := by
  simp [rowBitAt, (rowDistance_eq_iff hk).mpr hc, hk]

theorem rowBitAt_of_outside (b : Byte) (hout : ∀ k, k < 8 → c.val ≠ (x0.val + k) % 64) : rowBitAt x0 b c = false := by
  have hfar : ¬(c.val + 64 - x0.val) % 64 < 8 := fun hk => hout _ hk ((rowDistance_eq_iff hk).mp rfl)
  simp [rowBitAt, hfar]

theorem rowBitAt_eq_true_iff (b : Byte) :
    rowBitAt x0 b c = true ↔ ∃ k, k < 8 ∧ c.val = (x0.val + k) % 64 ∧ b.getLsbD (7 - k) = true := by
  constructor
  · simp only [rowBitAt, Bool.and_eq_true, decide_eq_true_eq]
    rintro ⟨hk, hb⟩
    exact ⟨_, hk, (rowDistance_eq_iff hk).mp rfl, hb⟩
  · rintro ⟨k, hk, hc, hb⟩
    rw [rowBitAt_of_col b hk hc, hb]

/-- Settles O45: a blitted row XORs each pixel with the row's bit on its column, and the column names the bit. -/
theorem blitRowTogglesUnderOneBits : Obligations.BlitRowTogglesUnderOneBits := by
  intro d x0 y0 b
  refine ⟨fun k c hk hc => ?_, fun c r hout => ?_, ?_⟩
  · simp [pixel_blitRow, rowBitAt_of_col b hk hc]
  · obtain hrow | hcol := hout
    · simp [pixel_blitRow, hrow]
    · simp [pixel_blitRow, rowBitAt_of_outside b hcol]
  · rw [collision_blitRow]
    constructor
    · rintro ⟨c, hset, hbit⟩
      obtain ⟨k, hk, hc, hb⟩ := (rowBitAt_eq_true_iff b).mp hbit
      exact ⟨k, c, hk, hc, hb, hset⟩
    · rintro ⟨k, c, hk, hc, hb, hset⟩
      exact ⟨c, hset, (rowBitAt_eq_true_iff b).mpr ⟨k, hk, hc, hb⟩⟩

end Sys2Proof.Machine
end

section
/-! The load of the index register (spec/45_index_memory.md R140). -/

namespace Sys2Proof.Machine

theorem exec_loadI (nnn : Addr) (s : State) : exec (.loadI nnn) s = .next { s with i := addrOperand nnn } := rfl

/-- Settles O51: the only update is that of `I`, to the zero-extended address. -/
theorem loadISetsIndex : Obligations.LoadISetsIndex := fun s nnn =>
  ⟨_, exec_loadI nnn s, addrOperand_toNat nnn, (Frame.refl s).withI _⟩

end Sys2Proof.Machine
end

section
/-! A block write that may run out of memory: what it stores inside memory, and the bytes it can reach at all
(spec/20_memory.md R56). -/

namespace Sys2Proof.Machine

variable {a k n : Nat} {bs : List Byte}

theorem State.readByte_writeBytes_of_lt (s : State) (hk : k < bs.length) (hmem : a + k < 4096) :
    (s.writeBytes a bs).1.readByte (a + k) = some bs[k] := by
  have hblock : a ≤ a + k ∧ a + k < a + bs.length ∧ a + k < 4096 := ⟨Nat.le_add_right a k, by omega, hmem⟩
  rw [State.readByte_writeBytes, if_pos hblock, Nat.add_sub_cancel_left, List.getElem?_eq_getElem hk]

theorem State.writeBytes_cons_of_ge (s : State) (b : Byte) (bs : List Byte) (ha : 4096 ≤ a) :
    s.writeBytes a (b :: bs) = (s, some a) := by
  simp [State.writeBytes, State.writeByte_of_ge s b ha]

/-- A block write that runs out of memory after `n` bytes changes only those: nothing is stored at 4096 or above. -/
theorem frame_writeBytes_clipped (s : State) (bs : List Byte) (hn : 4096 ≤ a + n) :
    Frame { memFrom := a, memCount := n } s (s.writeBytes a bs).1 := by
  obtain ⟨hreg, hi, hpc, hdt, hst, hstack, hfb, hmode, hready, -, hrest⟩ := frame_writeBytes s a bs
  refine ⟨hreg, hi, hpc, hdt, hst, hstack, hfb, hmode, hready, fun a' hout => ?_, hrest⟩
  have hunstored : ¬(a ≤ a' ∧ a' < a + bs.length ∧ a' < 4096) := fun ⟨hlow, _, hmem⟩ =>
    hout ⟨hlow, Nat.lt_of_lt_of_le hmem hn⟩
  rw [State.readByte_writeBytes, if_neg hunstored]

end Sys2Proof.Machine
end

section
/-! The store of the decimal digits (spec/45_index_memory.md R143). -/

namespace Sys2Proof.Machine

variable {s : State} (x : Reg) {a n : Nat}

/-- The state after the digit stores that stay inside memory. -/
def State.storeDigits (s : State) (x : Reg) : State := (s.writeBytes s.i.toNat (decimalDigits (s.reg x))).1

theorem exec_binaryCodeI_of_le (h : s.i.toNat ≤ 4093) : exec (.binaryCodeI x) s = .next (s.storeDigits x) := by
  have hfits : (s.writeBytes s.i.toNat (decimalDigits (s.reg x))).2 = none := by
    rw [State.writeBytes_fault, decimalDigits_length, if_pos (.inr (by omega))]
  simp [exec, execBinaryCodeI, hfits, State.storeDigits]

theorem exec_binaryCodeI_of_gt (h : 4093 < s.i.toNat) :
    exec (.binaryCodeI x) s = .next ((s.storeDigits x).raiseHere (.memoryBoundsError (max s.i.toNat 4096))) := by
  have hdigits : decimalDigits (s.reg x) ≠ [] := List.cons_ne_nil _ _
  have hfault : (s.writeBytes s.i.toNat (decimalDigits (s.reg x))).2 = some (max s.i.toNat 4096) := by
    rw [State.writeBytes_fault, decimalDigits_length, if_neg (not_or.mpr ⟨hdigits, by omega⟩)]
  simp [exec, execBinaryCodeI, hfault, State.storeDigits]

theorem readByte_storeDigits {k : Nat} (hk : k < 3) (h : s.i.toNat + k < 4096) :
    (s.storeDigits x).readByte (s.i.toNat + k) = some ((decimalDigits (s.reg x))[k]'hk) :=
  s.readByte_writeBytes_of_lt hk h

theorem storeDigits_of_ge (h : 4096 ≤ s.i.toNat) : s.storeDigits x = s := by
  rw [State.storeDigits, decimalDigits, State.writeBytes_cons_of_ge s _ _ h]

/-- A fault at the end of memory keeps the digits stored before it, which lie in the `n` bytes from `I` upwards. -/
theorem frame_storeDigits_raiseHere (c : FaultCause) (hi : s.i.toNat = a) (hn : 4096 ≤ a + n) :
    Frame { mode := true, memFrom := a, memCount := n } s ((s.storeDigits x).raiseHere c) := by
  subst hi
  exact (frame_writeBytes_clipped s _ hn).withMode _

/-- Settles O54, by how many of the three addresses lie inside memory. -/
theorem bcdStoresDecimalDigits : Obligations.BcdStoresDecimalDigits := by
  intro s x
  refine ⟨fun h => ?_, fun h => ?_, fun h => ?_, fun h => ?_⟩
  · have hread (k : Nat) (hk : k < 3) := readByte_storeDigits x hk (show s.i.toNat + k < 4096 by omega)
    exact ⟨_, exec_binaryCodeI_of_le x h, hread 0 (by decide), hread 1 (by decide), hread 2 (by decide),
      frame_writeBytes s _ (decimalDigits (s.reg x))⟩
  · have hread (k : Nat) (hk : k < 2) := readByte_storeDigits x (show k < 3 by omega)
      (show s.i.toNat + k < 4096 by omega)
    have hexec := exec_binaryCodeI_of_gt x (show 4093 < s.i.toNat by omega)
    rw [h] at hread hexec
    exact ⟨_, hexec, faultedBy_raiseHere _ _, hread 0 (by decide), hread 1 (by decide),
      frame_storeDigits_raiseHere x _ h (by decide)⟩
  · have hread := readByte_storeDigits x (show 0 < 3 by decide) (show s.i.toNat + 0 < 4096 by omega)
    have hexec := exec_binaryCodeI_of_gt x (show 4093 < s.i.toNat by omega)
    rw [h] at hread hexec
    exact ⟨_, hexec, faultedBy_raiseHere _ _, hread, frame_storeDigits_raiseHere x _ h (by decide)⟩
  · have hexec := exec_binaryCodeI_of_gt x (show 4093 < s.i.toNat by omega)
    rw [storeDigits_of_ge x h, max_eq_left h] at hexec
    exact ⟨_, hexec, faultedBy_raiseHere _ _, frame_raiseHere _ _⟩

end Sys2Proof.Machine
end

section
/-! Decoding after encoding, instruction by instruction (spec/30_encoding.md R65, R66). -/

namespace Sys2Proof

theorem decode_encode (i : Instr) : decode (encode i) = .ok i := by
  cases i with
  | halt | clearScreen | ret => rfl
  | _ => simp [encode, decode, decodeFamily8, decodeFamilyE, decodeFamilyF]

theorem decodeBytes_encodeBytes_append (i : Instr) (rest : List Byte) :
    decodeBytes (encodeBytes i ++ rest) = .ok (i, rest) := by
  simp [encodeBytes, decodeBytes, decode_encode]

/-- Settles O1: the fields of the encoded word lead the decoder back to the instruction, and its two bytes hold the
word. -/
theorem decodeEncodeRoundTrip : Obligations.DecodeEncodeRoundTrip := fun i =>
  ⟨decode_encode i, decodeBytes_encodeBytes_append i⟩

end Sys2Proof
end

section
/-! The opcode map in arithmetic: what a masked word is as a number, when a word is legal, and that every word either
decodes to an instruction that encodes to it or is illegal (spec/30_encoding.md R65, R66, R68). -/

namespace Sys2Proof

/-! ## Masked words -/

/-- A word from its four nibbles. -/
theorem encXY_fields (w : Word) : encXY (famOf w) (xOf w) (yOf w) (BitVec.ofFin (w := 4) (nOf w)) = w := by
  have hn : (BitVec.ofFin (w := 4) (nOf w)).toNat = (nOf w).val := rfl
  apply BitVec.eq_of_toNat_eq
  rw [encXY_toNat, hn, famOf_toNat, xOf_val, yOf_val, nOf_val]
  omega

/-- A word from its family, its `x` and its low byte. -/
theorem encXK_fields (w : Word) : encXK (famOf w) (xOf w) (kkOf w) = w := by
  apply BitVec.eq_of_toNat_eq
  rw [encXK_toNat, famOf_toNat, xOf_val, kkOf_toNat]
  omega

theorem and_family_toNat (w : Word) : (w &&& 0xF000#16).toNat = w.toNat / 4096 * 4096 := by
  conv_lhs => rw [← encXY_fields w, encXY_and_family, encXY_toNat, famOf_toNat]
  simp

theorem and_family_nibble_toNat (w : Word) : (w &&& 0xF00F#16).toNat = w.toNat / 4096 * 4096 + w.toNat % 16 := by
  have hn : (BitVec.ofFin (w := 4) (nOf w)).toNat = (nOf w).val := rfl
  conv_lhs => rw [← encXY_fields w, encXY_and_low, encXY_toNat, hn, famOf_toNat, nOf_val]
  simp

theorem and_family_byte_toNat (w : Word) : (w &&& 0xF0FF#16).toNat = w.toNat / 4096 * 4096 + w.toNat % 256 := by
  conv_lhs => rw [← encXK_fields w, encXK_and_low, encXK_toNat, famOf_toNat, kkOf_toNat]
  simp

/-! ## Legal words -/

theorem takes_eq_false_iff (row : OpRow) (w : Word) :
    row.takes w = false ↔ (w &&& row.mask).toNat ≠ row.pattern.toNat := by
  rw [OpRow.takes, beq_eq_false_iff_ne, ne_eq, ← BitVec.toNat_inj]

/-- No row of a group with one mask takes the word. -/
theorem any_takes_eq_false_iff {rows : List OpRow} {mask w : Word} (hmask : ∀ row ∈ rows, row.mask = mask) :
    rows.any (·.takes w) = false ↔ ∀ row ∈ rows, (w &&& mask).toNat ≠ row.pattern.toNat := by
  rw [List.any_eq_false]
  refine forall₂_congr fun row hrow => ?_
  rw [Bool.not_eq_true, takes_eq_false_iff, hmask row hrow]

/-- A word is illegal when none of the four groups of R66 has a row for it. -/
theorem legalWord_eq_false_iff (w : Word) :
    legalWord w = false ↔
      (∀ row ∈ rowsZ, w.toNat ≠ row.pattern.toNat) ∧
      (∀ row ∈ rowsWide, w.toNat / 4096 * 4096 ≠ row.pattern.toNat) ∧
      (∀ row ∈ rowsXY, w.toNat / 4096 * 4096 + w.toNat % 16 ≠ row.pattern.toNat) ∧
      (∀ row ∈ rowsXS, w.toNat / 4096 * 4096 + w.toNat % 256 ≠ row.pattern.toNat) := by
  have hall : w &&& 0xFFFF#16 = w := BitVec.and_allOnes
  rw [legalWord, opcodeMap, List.any_append, List.any_append, List.any_append, Bool.or_eq_false_iff,
    Bool.or_eq_false_iff, Bool.or_eq_false_iff,
    any_takes_eq_false_iff (rows := rowsZ) (mask := 0xFFFF#16) (by decide),
    any_takes_eq_false_iff (rows := rowsWide) (mask := 0xF000#16) (by decide),
    any_takes_eq_false_iff (rows := rowsXY) (mask := 0xF00F#16) (by decide),
    any_takes_eq_false_iff (rows := rowsXS) (mask := 0xF0FF#16) (by decide),
    hall, and_family_toNat, and_family_nibble_toNat, and_family_byte_toNat, and_assoc, and_assoc]

theorem Instr.row_mem_opcodeMap (i : Instr) : i.row ∈ opcodeMap := by
  cases i <;> simp [Instr.row, opcodeMap, rowsZ, rowsWide, rowsXY, rowsXS]

/-- An encoded word has the fixed bits of its instruction's own row, format by format. -/
theorem Instr.row_takes_encode (i : Instr) : i.row.takes (encode i) = true := by
  cases i with
  | halt | clearScreen | ret => rfl
  | jump nnn | call nnn | loadI nnn | jumpOffset nnn => exact beq_iff_eq.mpr (encA_and _ nnn)
  | skipEqImm x kk | skipNeImm x kk | loadImm x kk | addImm x kk | randomAnd x kk =>
    exact beq_iff_eq.mpr (encXK_and_family _ x kk)
  | skipEqReg x y | move x y | or x y | and x y | xor x y | add x y | sub x y | shiftRight x y | subN x y
  | shiftLeft x y | skipNeReg x y => exact beq_iff_eq.mpr (encXY_and_low _ x y _)
  | draw x y n => exact beq_iff_eq.mpr (encXY_and_family _ x y _)
  | skipKeyPressed x | skipKeyNotPressed x | readDelay x | waitForKeyPress x | setDelay x | setSound x | addI x
  | setIToFontDigit x | binaryCodeI x | copyRegistersToI x | copyIToRegisters x =>
    exact beq_iff_eq.mpr (encXK_and_low _ x _)

theorem Instr.legalWord_encode (i : Instr) : legalWord (encode i) = true :=
  List.any_eq_true.mpr ⟨i.row, i.row_mem_opcodeMap, i.row_takes_encode⟩

/-! ## The decoder, family by family -/

/-- What `decode` answers for a word: an instruction that encodes to it, or, for an illegal word only, its error. -/
def DecodesRight (w : Word) (answer : Except DecodeReject Instr) : Prop :=
  (∃ i, answer = .ok i ∧ encode i = w) ∨ (answer = .error (.illegalWord w) ∧ legalWord w = false)

theorem DecodesRight.ok {w : Word} {i : Instr} (h : encode i = w) : DecodesRight w (.ok i) := .inl ⟨i, rfl, h⟩

theorem DecodesRight.error {w : Word} (h : legalWord w = false) : DecodesRight w (.error (.illegalWord w)) :=
  .inr ⟨rfl, h⟩

/-- A word whose family and `nnn` are those of format A. -/
theorem encA_eq {w : Word} {f : BitVec 4} (h : (famOf w).toNat = f.toNat) : encA f (nnnOf w) = w := by
  rw [famOf_toNat] at h
  apply BitVec.eq_of_toNat_eq
  rw [encA_toNat, nnnOf_toNat]
  omega

theorem encXK_eq {w : Word} {f : BitVec 4} {k : Byte} (h : (famOf w).toNat = f.toNat)
    (hk : (kkOf w).toNat = k.toNat) : encXK f (xOf w) k = w := by
  rw [← BitVec.eq_of_toNat_eq h, ← BitVec.eq_of_toNat_eq hk, encXK_fields]

theorem encXY_eq {w : Word} {f n : BitVec 4} (h : (famOf w).toNat = f.toNat) (hn : (nOf w).val = n.toNat) :
    encXY f (xOf w) (yOf w) n = w := by
  have hn' : BitVec.ofFin (w := 4) (nOf w) = n := BitVec.eq_of_toNat_eq hn
  rw [← BitVec.eq_of_toNat_eq h, ← hn', encXY_fields]

theorem decodeFamily0_right {w : Word} (h : (famOf w).toNat = 0x0) : DecodesRight w (decodeFamily0 w) := by
  unfold decodeFamily0
  split
  · next e => exact .ok e.symm
  · split
    · next e => exact .ok e.symm
    · split
      · next e => exact .ok e.symm
      · refine .error ((legalWord_eq_false_iff w).mpr ?_)
        simp_all [rowsZ, rowsWide, rowsXY, rowsXS, ← BitVec.toNat_inj, famOf_toNat]
        omega

theorem decodeFamily8_right {w : Word} (h : (famOf w).toNat = 0x8) : DecodesRight w (decodeFamily8 w) := by
  unfold decodeFamily8
  split
  case h_10 =>
    refine .error ((legalWord_eq_false_iff w).mpr ?_)
    simp_all [rowsZ, rowsWide, rowsXY, rowsXS, famOf_toNat, nOf_val]
    omega
  all_goals
    next hn => exact .ok (encXY_eq h hn)

theorem decodeFamilyE_right {w : Word} (h : (famOf w).toNat = 0xE) : DecodesRight w (decodeFamilyE w) := by
  unfold decodeFamilyE
  split
  case h_3 =>
    refine .error ((legalWord_eq_false_iff w).mpr ?_)
    simp_all [rowsZ, rowsWide, rowsXY, rowsXS, famOf_toNat, kkOf_toNat]
    omega
  all_goals
    next hk => exact .ok (encXK_eq h hk)

theorem decodeFamilyF_right {w : Word} (h : (famOf w).toNat = 0xF) : DecodesRight w (decodeFamilyF w) := by
  unfold decodeFamilyF
  split
  case h_10 =>
    refine .error ((legalWord_eq_false_iff w).mpr ?_)
    simp_all [rowsZ, rowsWide, rowsXY, rowsXS, famOf_toNat, kkOf_toNat]
    omega
  all_goals
    next hk => exact .ok (encXK_eq h hk)

/-- Families `5` and `9`: only the low nibble `0` is an instruction (D9). -/
theorem decodeNibbleZero_right {w : Word} {f : BitVec 4} {i : Instr} (h : (famOf w).toNat = f.toNat)
    (hf : f = 0x5#4 ∨ f = 0x9#4) (hi : encode i = encXY f (xOf w) (yOf w) 0x0#4) :
    DecodesRight w (if nOf w = 0 then .ok i else .error (.illegalWord w)) := by
  split
  · next hn => exact .ok (hi.trans (encXY_eq h (congrArg Fin.val hn)))
  · next hn =>
    rw [Fin.ext_iff, nOf_val] at hn
    refine .error ((legalWord_eq_false_iff w).mpr ?_)
    obtain rfl | rfl := hf
    all_goals
      simp_all [rowsZ, rowsWide, rowsXY, rowsXS, famOf_toNat]
      omega

/-- The decoder is right on every word. -/
theorem decode_right (w : Word) : DecodesRight w (decode w) := by
  unfold decode
  split
  case h_1 h => exact decodeFamily0_right h
  case h_2 h => exact .ok (encA_eq h)
  case h_3 h => exact .ok (encA_eq h)
  case h_4 h => exact .ok (encXK_eq h rfl)
  case h_5 h => exact .ok (encXK_eq h rfl)
  case h_6 h => exact decodeNibbleZero_right (f := 0x5#4) h (.inl rfl) rfl
  case h_7 h => exact .ok (encXK_eq h rfl)
  case h_8 h => exact .ok (encXK_eq h rfl)
  case h_9 h => exact decodeFamily8_right h
  case h_10 h => exact decodeNibbleZero_right (f := 0x9#4) h (.inr rfl) rfl
  case h_11 h => exact .ok (encA_eq h)
  case h_12 h => exact .ok (encA_eq h)
  case h_13 h => exact .ok (encXK_eq h rfl)
  case h_14 h => exact .ok (encXY_eq h rfl)
  case h_15 h => exact decodeFamilyE_right h
  case h_16 h => exact decodeFamilyF_right h
  case h_17 =>
    have hf : (famOf w).toNat < 16 := (famOf w).isLt
    simp only [imp_false] at *
    omega

theorem encode_of_decode {w : Word} {i : Instr} (h : decode w = .ok i) : encode i = w := by
  obtain ⟨j, hj, he⟩ | ⟨hj, -⟩ := decode_right w
  · rw [h] at hj
    exact Except.ok.inj hj ▸ he
  · rw [h] at hj
    cases hj

theorem decode_of_illegal {w : Word} (h : legalWord w = false) : decode w = .error (.illegalWord w) := by
  obtain ⟨i, -, rfl⟩ | ⟨hj, -⟩ := decode_right w
  · rw [i.legalWord_encode] at h
    cases h
  · exact hj

theorem exists_decode_of_legal {w : Word} (h : legalWord w = true) : ∃ i, decode w = .ok i := by
  obtain ⟨i, hi, -⟩ | ⟨-, hill⟩ := decode_right w
  · exact ⟨i, hi⟩
  · rw [h] at hill
    cases hill

theorem illegal_of_decode_error {w : Word} {r : DecodeReject} (h : decode w = .error r) : legalWord w = false := by
  by_contra hleg
  obtain ⟨i, hi⟩ := exists_decode_of_legal (Bool.eq_true_of_not_eq_false hleg)
  cases hi.symm.trans h

/-- Settles O2: the word an instruction decodes from is its encoding, which its own row takes. -/
theorem decodeAgreesWithOpcodeMap : Obligations.DecodeAgreesWithOpcodeMap := by
  refine fun w => ⟨⟨exists_decode_of_legal, ?_⟩, ?_, decode_of_illegal⟩
  · rintro ⟨i, h⟩
    exact encode_of_decode h ▸ i.legalWord_encode
  · intro i h
    have he := encode_of_decode h
    exact ⟨he, i.row_mem_opcodeMap, he ▸ i.row_takes_encode⟩

/-! ## Disjoint rows -/

/-- Two rows that share a word have patterns that agree where both masks are set. -/
theorem pattern_and_mask_eq {row row' : OpRow} {w : Word} (h : row.takes w = true) (h' : row'.takes w = true) :
    row.pattern &&& row'.mask = row'.pattern &&& row.mask := by
  rw [OpRow.takes, beq_iff_eq] at h h'
  rw [← h, ← h', BitVec.and_assoc, BitVec.and_assoc, BitVec.and_comm row.mask]

/-- The patterns of the 35 rows differ pairwise where both masks are set. -/
theorem opcodeMap_patterns_differ :
    opcodeMap.Pairwise fun row row' => row.pattern &&& row'.mask ≠ row'.pattern &&& row.mask := by
  decide

/-- Settles O3: a word of two rows would make their patterns agree under both masks. -/
theorem opcodeRowsAreDisjoint : Obligations.OpcodeRowsAreDisjoint :=
  opcodeMap_patterns_differ.imp fun hne _ ⟨h, h'⟩ => hne (pattern_and_mask_eq h h')

/-- Settles O4, by evaluation of the decoder on the eleven words. -/
theorem sampleWordsDecode : Obligations.SampleWordsDecode := by
  unfold Obligations.SampleWordsDecode
  decide

end Sys2Proof
end

section
/-! The block transfers between the registers and memory (spec/45_index_memory.md R144, R145, spec/20_memory.md R52,
R56). -/

namespace Sys2Proof.Machine

variable {s : State} {x r : Reg}

/-! ## Frames of a load and of a fault -/

/-- A frame whose registers are named again. -/
theorem Frame.withRegs {w : Writes} {t : State} {regs : List Reg} (h : Frame w s t)
    (hregs : ∀ r, r ∉ regs → t.reg r = s.reg r) : Frame { w with regs := regs } s t :=
  let ⟨_, hrest⟩ := h
  ⟨hregs, hrest⟩

theorem Frame.raiseHere {w : Writes} {t : State} (h : Frame w s t) (c : FaultCause) :
    Frame { w with mode := true } s (t.raiseHere c) :=
  h.withMode _

/-! ## The block store -/

/-- The state after the stores of `Fx55` that stay inside memory. -/
def State.storeBlock (s : State) (x : Reg) : State := (s.writeBytes s.i.toNat (s.regBlock x)).1

theorem storeBlock_eq (s : State) (x : Reg) : s.storeBlock x = { s with mem := (s.storeBlock x).mem } :=
  s.writeBytes_eq _ _

@[simp] theorem State.storeBlock_i (s : State) (x : Reg) : (s.storeBlock x).i = s.i := by rw [storeBlock_eq]

@[simp] theorem State.storeBlock_pc (s : State) (x : Reg) : (s.storeBlock x).pc = s.pc := by rw [storeBlock_eq]

theorem exec_copyRegistersToI_of_lt (h : s.i.toNat + x.val < 4096) :
    exec (.copyRegistersToI x) s = .next (s.storeBlock x) := by
  have hfits : (s.writeBytes s.i.toNat (s.regBlock x)).2 = none := by
    rw [State.writeBytes_fault, State.regBlock_length, if_pos (.inr (by omega))]
  simp [exec, execCopyRegistersToI, hfits, State.storeBlock]

theorem exec_copyRegistersToI_of_ge (h : 4096 ≤ s.i.toNat + x.val) :
    exec (.copyRegistersToI x) s =
      .next ((s.storeBlock x).raiseHere (.memoryBoundsError (max s.i.toNat 4096))) := by
  have hblock : s.regBlock x ≠ [] := List.ne_nil_of_length_eq_add_one (s.regBlock_length x)
  have hfault : (s.writeBytes s.i.toNat (s.regBlock x)).2 = some (max s.i.toNat 4096) := by
    rw [State.writeBytes_fault, State.regBlock_length, if_neg (not_or.mpr ⟨hblock, by omega⟩)]
  simp [exec, execCopyRegistersToI, hfault, State.storeBlock]

theorem readByte_storeBlock (hr : r ≤ x) (h : s.i.toNat + r.val < 4096) :
    (s.storeBlock x).readByte (s.i.toNat + r.val) = some (s.reg r) := by
  have hrx : r.val ≤ x.val := hr
  rw [State.storeBlock, State.readByte_writeBytes, State.regBlock_length, if_pos ⟨by omega, by omega, h⟩,
    Nat.add_sub_cancel_left, State.regBlock_get s hr]

theorem frame_storeBlock (s : State) (x : Reg) :
    Frame { memFrom := s.i.toNat, memCount := x.val + 1 } s (s.storeBlock x) := by
  rw [← s.regBlock_length x]
  exact frame_writeBytes s s.i.toNat (s.regBlock x)

/-- Settles O55: no byte of the block leaves memory. -/
theorem storeBlockWritesInclusiveRange : Obligations.StoreBlockWritesInclusiveRange := by
  intro s x h
  refine ⟨_, exec_copyRegistersToI_of_lt h, fun r hr => readByte_storeBlock hr ?_, frame_storeBlock s x⟩
  have hrx : r.val ≤ x.val := hr
  omega

/-- Settles O56: the bytes below 4096 are stored before the fault is raised, and nothing lies above them. -/
theorem storeBlockOutOfBoundsKeepsBytes : Obligations.StoreBlockOutOfBoundsKeepsBytes := by
  intro s x h
  have hend : 4096 ≤ s.i.toNat + (4096 - s.i.toNat) := by omega
  refine ⟨_, exec_copyRegistersToI_of_ge h, ?_, fun r hr hmem => readByte_storeBlock hr hmem,
    (frame_writeBytes_clipped s (s.regBlock x) hend).raiseHere _⟩
  rw [State.raiseHere_mode, State.storeBlock_pc]

/-- Settles O28: the two bytes stored at `pc` are those the next fetch reads. -/
theorem storeIsSeenByNextFetch : Obligations.StoreIsSeenByNextFetch := by
  intro s x hx hi hmem
  have hhi := readByte_storeBlock (s := s) (r := 0) (Nat.zero_le x.val) (by simp; omega)
  have hlo := readByte_storeBlock (s := s) (r := 1) (x := x) hx (by simp; omega)
  refine ⟨_, exec_copyRegistersToI_of_lt hmem, (State.fetchWord_eq_ok_iff _ _).mpr ⟨_, _, ?_, ?_, rfl⟩⟩
  · rw [State.storeBlock_pc, ← hi]
    exact hhi
  · rw [State.storeBlock_pc, ← hi]
    exact hlo

/-! ## The block load -/

/-- The state after the loads of `Fx65` that stay inside memory. -/
def State.loadBlock (s : State) (x : Reg) : State := s.loadRegs (s.readBytes s.i.toNat (x.val + 1)).1

@[simp] theorem State.loadBlock_pc (s : State) (x : Reg) : (s.loadBlock x).pc = s.pc := State.loadRegs_pc _ _

theorem exec_copyIToRegisters_of_lt (h : s.i.toNat + x.val < 4096) :
    exec (.copyIToRegisters x) s = .next (s.loadBlock x) := by
  have hfits : (s.readBytes s.i.toNat (x.val + 1)).2 = none := by
    rw [State.readBytes_fault, if_pos (.inr (by omega))]
  simp [exec, execCopyIToRegisters, hfits, State.loadBlock]

theorem exec_copyIToRegisters_of_ge (h : 4096 ≤ s.i.toNat + x.val) :
    exec (.copyIToRegisters x) s =
      .next ((s.loadBlock x).raiseHere (.memoryBoundsError (max s.i.toNat 4096))) := by
  have hfault : (s.readBytes s.i.toNat (x.val + 1)).2 = some (max s.i.toNat 4096) := by
    rw [State.readBytes_fault, if_neg (by omega)]
  simp [exec, execCopyIToRegisters, hfault, State.loadBlock]

theorem readByte_eq_reg_loadBlock (hr : r ≤ x) (h : s.i.toNat + r.val < 4096) :
    s.readByte (s.i.toNat + r.val) = some ((s.loadBlock x).reg r) := by
  rw [State.loadBlock, State.reg_loadBlock, if_pos hr, State.readByte_of_lt s h, Option.getD_some]

theorem mem_blockRegs : r ∈ s.blockRegs x ↔ r ≤ x ∧ s.i.toNat + r.val < 4096 := by
  rw [State.blockRegs, List.mem_filter, and_iff_right (List.mem_finRange r), decide_eq_true_iff, State.effAddr_eq]

theorem frame_loadBlock_blockRegs (s : State) (x : Reg) : Frame { regs := s.blockRegs x } s (s.loadBlock x) := by
  refine (frame_loadBlock s s.i.toNat x).withRegs fun r hr => ?_
  rw [State.reg_loadBlock]
  split
  · next hrx =>
    have hout : 4096 ≤ s.i.toNat + r.val := Nat.le_of_not_lt fun hmem => hr (mem_blockRegs.mpr ⟨hrx, hmem⟩)
    rw [State.readByte_of_ge s hout, Option.getD_none]
  · rfl

/-- Settles O57: no byte of the block leaves memory, so `blockRegs` is all of `V[0]` to `V[x]`. -/
theorem loadBlockReadsInclusiveRange : Obligations.LoadBlockReadsInclusiveRange := by
  intro s x h
  refine ⟨_, exec_copyIToRegisters_of_lt h, fun r hr => readByte_eq_reg_loadBlock hr ?_,
    frame_loadBlock_blockRegs s x⟩
  have hrx : r.val ≤ x.val := hr
  omega

/-- Settles O58: the registers with a byte below 4096 are loaded before the fault is raised. -/
theorem loadBlockOutOfBoundsKeepsRegisters : Obligations.LoadBlockOutOfBoundsKeepsRegisters := by
  intro s x h
  refine ⟨_, exec_copyIToRegisters_of_ge h, ?_, fun r hr hmem => ?_, (frame_loadBlock_blockRegs s x).raiseHere _⟩
  · rw [State.raiseHere_mode, State.loadBlock_pc]
  · rw [State.reg_raiseHere]
    exact readByte_eq_reg_loadBlock hr hmem

/-- Settles O59: the load reads the bytes that the store left, whatever the registers hold in between. -/
theorem storeThenLoadReproducesRegisters : Obligations.StoreThenLoadReproducesRegisters := by
  intro s x v h
  have hi : ({ s.storeBlock x with v := v } : State).i = s.i := s.storeBlock_i x
  refine ⟨_, _, exec_copyRegistersToI_of_lt h, exec_copyIToRegisters_of_lt (hi ▸ h),
    fun r => ⟨fun hr => ?_, fun hr => ?_⟩⟩
  · have hrx : r.val ≤ x.val := hr
    have hread := readByte_eq_reg_loadBlock (s := { s.storeBlock x with v := v }) hr (by rw [hi]; omega)
    have hstored := readByte_storeBlock (s := s) hr (by omega)
    rw [hi] at hread
    exact Option.some.inj (hread.symm.trans hstored)
  · rw [State.loadBlock, State.reg_loadBlock, if_neg (not_le.mpr hr)]
    rfl

end Sys2Proof.Machine
end

section
/-! The drawing of a sprite (spec/43_display.md R122, R123). -/

namespace Sys2Proof.Machine

variable {s : State} {x y : Reg} {n : Fin 16}

/-! ## The framebuffer and the collision flag after the sprite rows that lie in memory -/

/-- The framebuffer after the rows of `Dxyn` that lie in memory, and whether a set pixel was unset. -/
def State.drawn (s : State) (x y : Reg) (n : Fin 16) : Display × Bool :=
  blitRows (s.originCol x) (s.originRow y).val (s.readBytes s.i.toNat n.val).1 (s.fb, false)

theorem readBytes_length_le (s : State) (n : Fin 16) : (s.readBytes s.i.toNat n.val).1.length ≤ 15 := by
  rw [State.readBytes_length]
  omega

/-- The bit that the bytes read for a sprite put on a pixel is the `spriteBit` of that pixel. -/
theorem spriteBitAt_readBytes (s : State) (x y : Reg) (n : Fin 16) (c : Fin 64) (r : Fin 32) :
    spriteBitAt (s.originCol x) (s.originRow y).val (s.readBytes s.i.toNat n.val).1 c r =
      s.spriteBit x y n.val c r := by
  have hcol : (s.originCol x).val = (s.reg x).toNat % 64 := rfl
  have hrow : (s.originRow y).val = (s.reg y).toNat % 32 := rfl
  have hdist : (r.val + 64 - (s.reg y).toNat % 32) % 32 = (r.val + 32 - (s.reg y).toNat % 32) % 32 := by omega
  have hlen := readBytes_length_le s n
  rw [spriteBitAt_eq _ _ _ _ _ (by omega) (by omega), State.readBytes_get, hrow, hdist]
  unfold State.spriteBit rowBitAt
  rw [hcol]
  by_cases hn : (r.val + 32 - (s.reg y).toNat % 32) % 32 < n.val
  · cases hread : s.readByte (s.i.toNat + (r.val + 32 - (s.reg y).toNat % 32) % 32) <;> simp [hn, hread]
  · simp [hn]

theorem pixel_drawn (s : State) (x y : Reg) (n : Fin 16) (c : Fin 64) (r : Fin 32) :
    Display.pixel (s.drawn x y n).1 c r = (s.pixel c r != s.spriteBit x y n.val c r) := by
  have hlen := readBytes_length_le s n
  rw [State.drawn, (blitRows_spec _ _ _ (by omega) _).1, spriteBitAt_readBytes, Bool.bne_eq_xor]
  rfl

theorem collision_drawn (s : State) (x y : Reg) (n : Fin 16) :
    (s.drawn x y n).2 = true ↔ ∃ c r, s.pixel c r = true ∧ s.spriteBit x y n.val c r = true := by
  have hlen := readBytes_length_le s n
  rw [State.drawn, (blitRows_spec _ _ _ (by omega) _).2]
  simp only [spriteBitAt_readBytes, Bool.false_eq_true, false_or]
  rfl

/-- The rows of a sprite that lie at 4096 or above put no bit on any pixel. -/
theorem spriteBit_eq_of_ge {rows : Nat} (h : 4096 ≤ s.i.toNat + rows) (c : Fin 64) (r : Fin 32) :
    s.spriteBit x y rows c r = s.spriteBit x y (4096 - s.i.toNat) c r := by
  unfold State.spriteBit
  by_cases hmem : s.i.toNat + (r.val + 32 - (s.reg y).toNat % 32) % 32 < 4096
  · have hrows : (r.val + 32 - (s.reg y).toNat % 32) % 32 < rows := by omega
    have hrows' : (r.val + 32 - (s.reg y).toNat % 32) % 32 < 4096 - s.i.toNat := by omega
    simp [hrows, hrows']
  · simp [s.readByte_of_ge (Nat.le_of_not_lt hmem)]

/-! ## The two paths of `Dxyn` -/

/-- The state after a `Dxyn` that read every row. -/
def State.drawSprite (s : State) (x y : Reg) (n : Fin 16) : State :=
  { s.setReg VF (flagOf (s.drawn x y n).2) with fb := (s.drawn x y n).1, frameReady := true }

theorem exec_draw_of_fits (h : n = 0 ∨ s.i.toNat + n.val ≤ 4096) :
    exec (.draw x y n) s = .next (s.drawSprite x y n) := by
  have hfits : (s.readBytes s.i.toNat n.val).2 = none := by
    rw [State.readBytes_fault, if_pos (h.imp_left Fin.val_eq_zero_iff.mpr)]
  simp [exec, execDraw, hfits, State.drawSprite, State.drawn]

theorem exec_draw_of_leaves (hn : n ≠ 0) (h : 4096 < s.i.toNat + n.val) :
    exec (.draw x y n) s =
      .next ({ s with fb := (s.drawn x y n).1 }.raiseHere (.memoryBoundsError (max s.i.toNat 4096))) := by
  have hne : n.val ≠ 0 := fun e => hn (Fin.ext e)
  have hfault : (s.readBytes s.i.toNat n.val).2 = some (max s.i.toNat 4096) := by
    rw [State.readBytes_fault, if_neg (not_or.mpr ⟨hne, Nat.not_le.mpr h⟩)]
  simp [exec, execDraw, hfault, State.drawn]

theorem pixel_drawSprite (s : State) (x y : Reg) (n : Fin 16) (c : Fin 64) (r : Fin 32) :
    (s.drawSprite x y n).pixel c r = (s.pixel c r != s.spriteBit x y n.val c r) :=
  pixel_drawn s x y n c r

theorem reg_VF_drawSprite (s : State) (x y : Reg) (n : Fin 16) :
    (s.drawSprite x y n).reg VF = flagOf (s.drawn x y n).2 :=
  State.reg_setReg_same s VF _

theorem reg_VF_drawSprite_eq_one (h : ∃ c r, s.pixel c r = true ∧ s.spriteBit x y n.val c r = true) :
    (s.drawSprite x y n).reg VF = 1 := by
  rw [reg_VF_drawSprite, (collision_drawn s x y n).mpr h]
  rfl

theorem reg_VF_drawSprite_eq_zero (h : ∀ c r, s.pixel c r = true → s.spriteBit x y n.val c r = false) :
    (s.drawSprite x y n).reg VF = 0 := by
  have hnone : (s.drawn x y n).2 = false := by
    rw [← Bool.not_eq_true, collision_drawn]
    rintro ⟨c, r, hset, hbit⟩
    rw [h c r hset] at hbit
    cases hbit
  rw [reg_VF_drawSprite, hnone]
  rfl

/-- Settles O46: every row is read. -/
theorem drawXorsSpriteAndReportsCollision : Obligations.DrawXorsSpriteAndReportsCollision := fun s x y n h =>
  ⟨_, exec_draw_of_fits h, pixel_drawSprite s x y n, reg_VF_drawSprite_eq_one, reg_VF_drawSprite_eq_zero, rfl,
    (frame_setReg s VF _).withDisplay _ true⟩

theorem Frame.withFb {w : Writes} {s t : State} (h : Frame w s t) (d : Display) :
    Frame { w with fb := true } s { t with fb := d } :=
  let ⟨hreg, hi, hpc, hdt, hst, hstack, _, hrest⟩ := h
  ⟨hreg, hi, hpc, hdt, hst, hstack, nofun, hrest⟩

/-- Settles O47: the rows below 4096 are blitted before the fault is raised, and those above put no bit anywhere. -/
theorem drawOutOfBoundsKeepsDrawnRows : Obligations.DrawOutOfBoundsKeepsDrawnRows := by
  intro s x y n hn h
  refine ⟨_, exec_draw_of_leaves hn h, State.raiseHere_mode _ _, fun c r => ?_,
    ((Frame.refl s).withFb _).withMode _⟩
  rw [State.pixel_raiseHere, ← spriteBit_eq_of_ge (Nat.le_of_lt h)]
  exact pixel_drawn s x y n c r

/-! ## Drawing twice -/

/-- A draw whose operands are not `VF` leaves the sprite where it was. -/
theorem spriteBit_drawSprite (hx : x ≠ VF) (hy : y ≠ VF) (rows : Nat) (c : Fin 64) (r : Fin 32) :
    (s.drawSprite x y n).spriteBit x y rows c r = s.spriteBit x y rows c r := by
  have hreg : ∀ q : Reg, q ≠ VF → (s.drawSprite x y n).reg q = s.reg q := fun q hq => State.reg_setReg_ne s _ hq
  unfold State.spriteBit
  rw [hreg x hx, hreg y hy]
  rfl

/-- Settles O48: the second draw XORs every pixel with the bit that the first one put there. -/
theorem drawingTwiceRestoresDisplay : Obligations.DrawingTwiceRestoresDisplay := by
  intro s x y n hx hy h
  have hbit := spriteBit_drawSprite (s := s) (n := n) hx hy n.val
  refine ⟨_, _, exec_draw_of_fits h, exec_draw_of_fits h, Display.ext_pixel fun c r => ?_, ?_, ?_⟩
  · have htwice := pixel_drawSprite (s.drawSprite x y n) x y n c r
    rw [hbit, pixel_drawSprite s] at htwice
    have hself : ∀ p b : Bool, ((p != b) != b) = p := by decide
    exact htwice.trans (hself _ _)
  · rintro ⟨c, r, hsprite, hset⟩
    exact reg_VF_drawSprite_eq_one ⟨c, r, hset, (hbit c r).trans hsprite⟩
  · intro hnone
    refine reg_VF_drawSprite_eq_zero fun c r hset => ?_
    rw [hbit, ← Bool.not_eq_true]
    intro hsprite
    rw [hnone c r hsprite] at hset
    cases hset

end Sys2Proof.Machine
end

section
/-! What a frame leaves unchanged, field by field, and what the frame of an instruction names: its destinations, its
flag, its stored bytes, `I`, the timers and `pc` (spec/10_state.md R10 to R16, spec/20_memory.md R49). -/

namespace Sys2Proof.Machine

/-! ## The parts of a frame -/

section
variable {w : Writes} {s t : State}

theorem Frame.reg_eq (h : Frame w s t) {r : Reg} (hr : r ∉ w.regs) : t.reg r = s.reg r :=
  let ⟨hreg, _⟩ := h
  hreg r hr

theorem Frame.i_eq (h : Frame w s t) (hw : w.i = false) : t.i = s.i :=
  let ⟨_, hi, _⟩ := h
  hi hw

theorem Frame.pc_eq (h : Frame w s t) (hw : w.pc = false) : t.pc = s.pc :=
  let ⟨_, _, hpc, _⟩ := h
  hpc hw

theorem Frame.dt_eq (h : Frame w s t) (hw : w.dt = false) : t.dt = s.dt :=
  let ⟨_, _, _, hdt, _⟩ := h
  hdt hw

theorem Frame.st_eq (h : Frame w s t) (hw : w.st = false) : t.st = s.st :=
  let ⟨_, _, _, _, hst, _⟩ := h
  hst hw

theorem Frame.stack_eq (h : Frame w s t) (hw : w.stack = false) : t.stack = s.stack :=
  let ⟨_, _, _, _, _, hstack, _⟩ := h
  hstack hw

theorem Frame.mode_eq (h : Frame w s t) (hw : w.mode = false) : t.mode = s.mode :=
  let ⟨_, _, _, _, _, _, _, hmode, _⟩ := h
  hmode hw

theorem Frame.readByte_eq (h : Frame w s t) {a : Nat} (ha : ¬(w.memFrom ≤ a ∧ a < w.memFrom + w.memCount)) :
    t.readByte a = s.readByte a :=
  let ⟨_, _, _, _, _, _, _, _, _, hread, _⟩ := h
  hread a ha

theorem Frame.cfg_eq (h : Frame w s t) : t.cfg = s.cfg :=
  let ⟨_, _, _, _, _, _, _, _, _, _, hcfg, _⟩ := h
  hcfg

end

/-! ## What an instruction names -/

theorem mem_execWrites_regs (s : State) {i : Instr} {r : Reg} (h : r ∈ (execWrites s i).regs) :
    r ∈ i.dest ∨ (i.writesFlag = true ∧ r = VF) := by
  cases i with
  | add x y | sub x y | shiftRight x y | subN x y | shiftLeft x y =>
    obtain rfl | hr := List.mem_cons.mp h
    · exact .inl (List.mem_singleton_self r)
    · exact .inr ⟨rfl, List.mem_singleton.mp hr⟩
  | draw x y n => exact .inr ⟨rfl, List.mem_singleton.mp h⟩
  | _ => exact .inl h

theorem execWrites_i (s : State) {i : Instr} (hload : ∀ nnn, i ≠ .loadI nnn) (hadd : ∀ x, i ≠ .addI x)
    (hfont : ∀ x, i ≠ .setIToFontDigit x) : (execWrites s i).i = false := by
  cases i with
  | loadI nnn => exact absurd rfl (hload nnn)
  | addI x => exact absurd rfl (hadd x)
  | setIToFontDigit x => exact absurd rfl (hfont x)
  | _ => rfl

theorem execWrites_dt (s : State) {i : Instr} (h : ∀ x, i ≠ .setDelay x) : (execWrites s i).dt = false := by
  cases i with
  | setDelay x => exact absurd rfl (h x)
  | _ => rfl

theorem execWrites_st (s : State) {i : Instr} (h : ∀ x, i ≠ .setSound x) : (execWrites s i).st = false := by
  cases i with
  | setSound x => exact absurd rfl (h x)
  | _ => rfl

/-- The stored range of a frame is the one R49 gives the instruction. -/
theorem execWrites_stored (s : State) {i : Instr} {a : Nat}
    (h : (execWrites s i).memFrom ≤ a ∧ a < (execWrites s i).memFrom + (execWrites s i).memCount) :
    s.effAddr 0 ≤ a ∧ a < s.effAddr 0 + i.storeCount := by
  cases i with
  | binaryCodeI x | copyRegistersToI x => exact h
  | _ => exact absurd h.2 (Nat.not_lt_zero a)

/-- Settles O20: the frame of an instruction names its destinations and, for a flag writer, `VF`. -/
theorem registersChangeOnlyWhereNamed : Obligations.RegistersChangeOnlyWhereNamed := by
  intro i s t r h hdest hflag
  exact (exec_frame h).reg_eq fun hr => (mem_execWrites_regs s hr).elim hdest hflag

/-- Settles O23: the frame of an instruction names the bytes of R49's table. -/
theorem memoryChangesOnlyAtStoredBytes : Obligations.MemoryChangesOnlyAtStoredBytes := by
  intro i s t h a ha
  exact (exec_frame h).readByte_eq fun hstored => ha (execWrites_stored s hstored)

/-- Settles O24: the frames of the other instructions do not name `I`. -/
theorem indexChangesOnlyByItsWriters : Obligations.IndexChangesOnlyByItsWriters := by
  intro i s t h hload hadd hfont
  exact (exec_frame h).i_eq (execWrites_i s hload hadd hfont)

end Sys2Proof.Machine
end

section
/-! What an operation other than an instruction may change, that every operation but a rejected `Init` answers a next
state, and who changes the timers (spec/10_state.md R16, R25 to R28, R134). -/

namespace Sys2Proof.Machine

variable {s t : State}

theorem frame_pollWhileWaiting (s : State) (x : Reg) :
    Frame { regs := [x], mode := true } s (s.pollWhileWaiting x) := by
  unfold State.pollWhileWaiting
  split
  · exact (frame_setReg s x _).withMode _
  · simp [Frame]

/-! ## Outcomes -/

theorem stepByMode_next (s : State) : ∃ t, s.stepByMode = .next t := by
  unfold State.stepByMode State.cycle
  split
  · split
    · exact ⟨_, rfl⟩
    · split
      · exact ⟨_, rfl⟩
      · exact exec_next _ _
  · exact ⟨_, rfl⟩
  · exact ⟨_, rfl⟩
  · exact ⟨_, rfl⟩

theorem imageFits_iff (image : List Byte) : imageFits image = true ↔ image.length ≤ 3584 := decide_eq_true_iff

/-- The machine that `Init` loads an image into: a fresh one, with the host's side going on. -/
def State.emptied (s : State) (rest : List HostOp) : State :=
  { State.fresh s.cfg with host := rest, draws := s.draws }

theorem step_init_of_le {image : List Byte} {rest : List HostOp} (hh : s.host = .init image :: rest)
    (hlen : image.length ≤ 3584) :
    step s = .next ((s.emptied rest).writeBytes 0x200 image).1 := by
  simp [step, State.nextOperation, hh, State.initWith, State.emptied, (imageFits_iff image).mpr hlen]

theorem step_init_of_gt {image : List Byte} {rest : List HostOp} (hh : s.host = .init image :: rest)
    (hlen : image.length > 3584) : step s = .fault .loadTooLarge := by
  have hbig : ¬imageFits image = true := fun h => Nat.not_le.mpr hlen ((imageFits_iff image).mp h)
  simp [step, State.nextOperation, hh, State.initWith, hbig]

theorem step_tick {rest : List HostOp} (hh : s.host = .tick :: rest) :
    step s = .next { s with host := rest, frameReady := false }.tick := by
  simp [step, State.nextOperation, hh]

theorem step_step {key : Option Key} {rnd : Byte} {rest : List HostOp} (hh : s.host = .step key rnd :: rest) :
    step s = { s with host := rest, key := key, rnd := rnd, frameReady := false }.stepByMode := by
  simp [step, State.nextOperation, hh, State.beginStep]

theorem step_free (hh : s.host = []) :
    step s = { s with
      draws := s.draws + 1, key := Config.freeKey s.draws, rnd := Config.freeByte s.draws,
      frameReady := false }.stepByMode := by
  simp [step, State.nextOperation, hh, State.beginStep]

/-- Settles O14, by the length of the image. -/
theorem initRejectsTooLargeImage : Obligations.InitRejectsTooLargeImage := fun _ _ _ hh =>
  ⟨step_init_of_gt hh, fun hlen => ⟨_, step_init_of_le hh hlen⟩⟩

/-- A `Step` runs the instruction it fetched, or changes at most registers, `pc` and the run state. -/
theorem stepByMode_exec_or_idle (h : s.stepByMode = .next t) :
    (∃ w i, s.fetchWord = .ok w ∧ decode w = .ok i ∧ exec i s.advance = .next t) ∨
    ∃ regs, Frame { regs := regs, pc := true, mode := true } s t := by
  obtain ⟨a, -, -, rfl⟩ | ⟨w, r, -, -, -, rfl⟩ | ⟨w, i, -, hfetch, hdec, hexec⟩ | ⟨x, -, rfl⟩ | ⟨-, rfl⟩ |
    ⟨f, -, rfl⟩ := stepByMode_cases h
  · exact .inr ⟨[], ((Frame.refl s).withPc s.pc).withMode _⟩
  · exact .inr ⟨[], ((Frame.refl s).withPc (s.pc + 2)).withMode _⟩
  · exact .inl ⟨w, i, hfetch, hdec, hexec⟩
  · exact .inr ⟨[x], (frame_pollWhileWaiting s x).withPc (s.pollWhileWaiting x).pc⟩
  · exact .inr ⟨[], ((Frame.refl t).withPc t.pc).withMode t.mode⟩
  · exact .inr ⟨[], ((Frame.refl t).withPc t.pc).withMode t.mode⟩

/-- R6, R22: no operation changes the parameters. -/
theorem step_cfg (h : step s = .next t) : t.cfg = s.cfg := by
  obtain ⟨image, rest, -, -, rfl⟩ | ⟨rest, -, rfl⟩ | ⟨host, draws, key, rnd, -, hstep⟩ := step_cases h
  · exact (frame_writeBytes _ _ _).cfg_eq
  · exact State.tick_cfg _
  · obtain ⟨w, i, -, -, hexec⟩ | ⟨regs, hidle⟩ := stepByMode_exec_or_idle hstep
    · exact (exec_frame hexec).cfg_eq
    · exact hidle.cfg_eq

/-- Settles O15, by the host's next operation. -/
theorem onlyRejectedInitStops : Obligations.OnlyRejectedInitStops := by
  refine ⟨exec_next, fun s => ?_⟩
  have hnext : (∃ t, step s = .next t) ∨
      ∃ image rest, s.host = .init image :: rest ∧ image.length > 3584 ∧ step s = .fault .loadTooLarge := by
    match hh : s.host with
    | [] => exact .inl (step_free hh ▸ stepByMode_next _)
    | .step key rnd :: rest => exact .inl (step_step hh ▸ stepByMode_next _)
    | .tick :: rest => exact .inl ⟨_, step_tick hh⟩
    | .init image :: rest =>
      obtain hlen | hlen := le_or_gt image.length 3584
      · exact .inl ⟨_, step_init_of_le hh hlen⟩
      · exact .inr ⟨image, rest, rfl, hlen, step_init_of_gt hh hlen⟩
  exact hnext.imp_left fun ⟨t, ht⟩ => ⟨t, ht, step_cfg ht⟩

/-! ## The timers -/

/-- A `Step` that changes `DT` has fetched `Fx15`. -/
theorem stepByMode_dt (h : s.stepByMode = .next t) (hne : t.dt ≠ s.dt) :
    ∃ w x, s.fetchWord = .ok w ∧ decode w = .ok (.setDelay x) := by
  obtain ⟨w, i, hfetch, hdec, hexec⟩ | ⟨regs, hidle⟩ := stepByMode_exec_or_idle h
  · by_contra hno
    exact hne ((exec_frame hexec).dt_eq (execWrites_dt _ fun x hi => hno ⟨w, x, hfetch, hi ▸ hdec⟩))
  · exact absurd (hidle.dt_eq rfl) hne

/-- A `Step` that changes `ST` has fetched `Fx18`. -/
theorem stepByMode_st (h : s.stepByMode = .next t) (hne : t.st ≠ s.st) :
    ∃ w x, s.fetchWord = .ok w ∧ decode w = .ok (.setSound x) := by
  obtain ⟨w, i, hfetch, hdec, hexec⟩ | ⟨regs, hidle⟩ := stepByMode_exec_or_idle h
  · by_contra hno
    exact hne ((exec_frame hexec).st_eq (execWrites_st _ fun x hi => hno ⟨w, x, hfetch, hi ▸ hdec⟩))
  · exact absurd (hidle.st_eq rfl) hne

/-- Settles O19: the frames of the other instructions do not name the timers, and a `Step` changes them only through its
instruction. -/
theorem timersChangeOnlyByTheirWriters : Obligations.TimersChangeOnlyByTheirWriters := by
  refine ⟨fun i s t h => ⟨fun hi => (exec_frame h).dt_eq (execWrites_dt s hi),
    fun hi => (exec_frame h).st_eq (execWrites_st s hi)⟩, fun s t h hinit htick => ?_⟩
  obtain ⟨image, rest, hh, -⟩ | ⟨rest, hh, -⟩ | ⟨host, draws, key, rnd, -, hstep⟩ := step_cases h
  · exact absurd hh (hinit image rest)
  · exact absurd hh (htick rest)
  · have hdt := stepByMode_dt hstep
    have hst := stepByMode_st hstep
    exact ⟨hdt, hst⟩

end Sys2Proof.Machine
end

section
/-! Which fault an instruction raises and when, and what the fault record holds (spec/60_exceptions.md R151 to R157). -/

namespace Sys2Proof.Machine

variable {i : Instr} {s t : State}

theorem eq_of_exec {u : State} (hu : exec i s = .next u) (h : exec i s = .next t) : u = t :=
  Host.Outcome.next.inj (hu.symm.trans h)

/-! ## The two paths of `CALL` -/

theorem exec_call_of_room (nnn : Addr) (h : s.stackFull = false) :
    exec (.call nnn) s = .next { s with stack := s.pc :: s.stack, pc := addrOperand nnn } := by
  simp [exec, execCall, State.push, h]

theorem exec_call_of_full (nnn : Addr) (h : s.stackFull = true) :
    exec (.call nnn) s = .next (s.raiseHere .stackOverflow) := by
  simp [exec, execCall, State.push, h]

theorem State.stackFull_eq_true_of {d : Nat} (hd : s.cfg.stackDepth = some d) (h : d ≤ s.stack.length) :
    s.stackFull = true := by
  simp [State.stackFull, hd, h]

theorem State.stackDepth_ne_none_of_stackFull (h : s.stackFull = true) : s.cfg.stackDepth ≠ none := by
  intro hd
  simp [State.stackFull, hd] at h

/-- Settles O32, by the room on the stack. -/
theorem callPushesPc : Obligations.CallPushesPc := by
  refine fun s nnn => ⟨fun hroom => ?_, fun d hd hfull => ?_⟩
  · exact ⟨_, exec_call_of_room nnn ((State.stackFull_eq_false_iff s).mpr hroom), addrOperand_toNat nnn, rfl,
      ((Frame.refl s).withStack (s.pc :: s.stack)).withPc _⟩
  · exact ⟨_, exec_call_of_full nnn (State.stackFull_eq_true_of hd hfull), faultedBy_raiseHere s _,
      frame_raiseHere s _⟩

/-! ## The one kind of fault of an instruction -/

/-- The faults an instruction can raise from `s` (R157): an access to memory faults at its lowest address that does not
exist. -/
inductive Raises (s : State) : Instr → FaultCause → Prop
  | ret : Raises s .ret .stackUnderflow
  | call (nnn : Addr) (hfull : s.stackFull = true) : Raises s (.call nnn) .stackOverflow
  | draw (x y : Reg) (n : Fin 16) : Raises s (.draw x y n) (.memoryBoundsError (max s.i.toNat 4096))
  | storeDigits (x : Reg) : Raises s (.binaryCodeI x) (.memoryBoundsError (max s.i.toNat 4096))
  | storeBlock (x : Reg) : Raises s (.copyRegistersToI x) (.memoryBoundsError (max s.i.toNat 4096))
  | loadBlock (x : Reg) : Raises s (.copyIToRegisters x) (.memoryBoundsError (max s.i.toNat 4096))

/-- How an instruction run from `s` that ends in `t` can have faulted: it raised one of its own faults, with the address
of the instruction, or the fault was there before. -/
def FaultsOnlyBy (i : Instr) (s t : State) : Prop :=
  (∃ c, Raises s i c ∧ t.mode = .faulted { cause := c, faultPc := s.pc - 2 }) ∨
  ∀ f, t.mode = .faulted f → s.mode = .faulted f

theorem FaultsOnlyBy.of_mode_eq (h : t.mode = s.mode) : FaultsOnlyBy i s t := .inr fun _ hf => h ▸ hf

theorem FaultsOnlyBy.of_raise {u : State} {c : FaultCause} (hc : Raises s i c) (hpc : u.pc = s.pc) :
    FaultsOnlyBy i s (u.raiseHere c) :=
  .inl ⟨c, hc, hpc ▸ u.raiseHere_mode c⟩

theorem FaultsOnlyBy.of_next {u : State} (hu : exec i s = .next u) (h : exec i s = .next t)
    (hf : FaultsOnlyBy i s u) : FaultsOnlyBy i s t :=
  eq_of_exec hu h ▸ hf

theorem storeDigits_eq (s : State) (x : Reg) : s.storeDigits x = { s with mem := (s.storeDigits x).mem } :=
  s.writeBytes_eq _ _

theorem exec_faultsOnlyBy (h : exec i s = .next t) : FaultsOnlyBy i s t := by
  cases i with
  | halt => exact .of_next rfl h (.inr nofun)
  | waitForKeyPress x =>
    refine .of_next rfl h ?_
    split
    · exact .of_mode_eq rfl
    · exact .inr nofun
  | ret =>
    cases hs : s.stack with
    | nil => exact .of_next (exec_ret_of_stack_eq_nil hs) h (.of_raise .ret rfl)
    | cons a rest => exact .of_next (exec_ret_of_stack_eq_cons hs) h (.of_mode_eq rfl)
  | call nnn =>
    cases hfull : s.stackFull with
    | false => exact .of_next (exec_call_of_room nnn hfull) h (.of_mode_eq rfl)
    | true => exact .of_next (exec_call_of_full nnn hfull) h (.of_raise (.call nnn hfull) rfl)
  | draw x y n =>
    by_cases hfits : n = 0 ∨ s.i.toNat + n.val ≤ 4096
    · exact .of_next (exec_draw_of_fits hfits) h (.of_mode_eq rfl)
    · obtain ⟨hn, hout⟩ := not_or.mp hfits
      exact .of_next (exec_draw_of_leaves hn (Nat.lt_of_not_le hout)) h (.of_raise (.draw x y n) rfl)
  | binaryCodeI x =>
    obtain hfits | hout := le_or_gt s.i.toNat 4093
    · exact .of_next (exec_binaryCodeI_of_le x hfits) h (.of_mode_eq (by rw [storeDigits_eq]))
    · exact .of_next (exec_binaryCodeI_of_gt x hout) h (.of_raise (.storeDigits x) (by rw [storeDigits_eq]))
  | copyRegistersToI x =>
    obtain hfits | hout := lt_or_ge (s.i.toNat + x.val) 4096
    · exact .of_next (exec_copyRegistersToI_of_lt hfits) h (.of_mode_eq (by rw [storeBlock_eq]))
    · exact .of_next (exec_copyRegistersToI_of_ge hout) h (.of_raise (.storeBlock x) (s.storeBlock_pc x))
  | copyIToRegisters x =>
    obtain hfits | hout := lt_or_ge (s.i.toNat + x.val) 4096
    · exact .of_next (exec_copyIToRegisters_of_lt hfits) h (.of_mode_eq (State.loadRegs_mode _ _))
    · exact .of_next (exec_copyIToRegisters_of_ge hout) h (.of_raise (.loadBlock x) (s.loadBlock_pc x))
  | _ => exact .of_mode_eq ((exec_frame h).mode_eq rfl)

/-- The record of a fault that the instruction itself raised. -/
theorem exec_fault {f : FaultRecord} (h : exec i s = .next t) (hs : ∀ g, s.mode ≠ .faulted g)
    (ht : t.mode = .faulted f) : Raises s i f.cause ∧ f.faultPc = s.pc - 2 := by
  obtain ⟨c, hc, hm⟩ | hkeep := exec_faultsOnlyBy h
  · obtain rfl := Mode.faulted.inj (ht.symm.trans hm)
    exact ⟨hc, rfl⟩
  · exact absurd (hkeep f ht) (hs f)

/-- Settles O27, by the faults of `Raises`. -/
theorem eachInstructionRaisesOneKindOfFault : Obligations.EachInstructionRaisesOneKindOfFault := by
  intro i s t f h hs ht
  obtain ⟨hc, -⟩ := exec_fault h hs ht
  generalize f.cause = c at hc ⊢
  cases hc with
  | ret => exact .inl ⟨rfl, rfl⟩
  | call nnn _ => exact .inr (.inl ⟨⟨nnn, rfl⟩, rfl⟩)
  | draw x y n => exact .inr (.inr ⟨.inl ⟨x, y, n, rfl⟩, rfl⟩)
  | storeDigits x => exact .inr (.inr ⟨.inr (.inl ⟨x, rfl⟩), rfl⟩)
  | storeBlock x => exact .inr (.inr ⟨.inr (.inr (.inl ⟨x, rfl⟩)), rfl⟩)
  | loadBlock x => exact .inr (.inr ⟨.inr (.inr (.inr ⟨x, rfl⟩)), rfl⟩)

/-! ## The address in the record -/

/-- In `RUNNING` every phase of a `Step` records the `pc` it started from. -/
theorem stepByMode_faultPc {f : FaultRecord} (h : s.stepByMode = .next t) (hrun : s.mode = .running)
    (ht : t.mode = .faulted f) : f.faultPc = s.pc := by
  obtain ⟨a, -, -, rfl⟩ | ⟨w, r, -, -, -, rfl⟩ | ⟨w, i, -, -, -, hexec⟩ | ⟨x, hm, -⟩ | ⟨hm, -⟩ | ⟨g, hm, -⟩ :=
    stepByMode_cases h
  · exact (Mode.faulted.inj ht) ▸ rfl
  · exact (Mode.faulted.inj ht) ▸ rfl
  · have hadv : ∀ g, s.advance.mode ≠ .faulted g := fun g hg => by
      rw [State.advance_mode, hrun] at hg
      cases hg
    obtain ⟨-, hpc⟩ := exec_fault hexec hadv ht
    rw [hpc, State.advance_pc, BitVec.add_sub_cancel]
  · rw [hrun] at hm; cases hm
  · rw [hrun] at hm; cases hm
  · rw [hrun] at hm; cases hm

/-- Settles O8: a `Tick` raises nothing, and a `Step` records its own `pc`. -/
theorem faultRecordHoldsFetchAddress : Obligations.FaultRecordHoldsFetchAddress := by
  intro s t f hrun hinit h ht
  obtain ⟨image, rest, hh, -⟩ | ⟨rest, -, rfl⟩ | ⟨host, draws, key, rnd, -, hstep⟩ := step_cases h
  · exact absurd hh (hinit image rest)
  · rw [State.tick_mode] at ht
    cases hrun.symm.trans ht
  · have hpc := stepByMode_faultPc hstep hrun ht
    exact hpc

end Sys2Proof.Machine
end

section
/-! What an instruction leaves in memory, in `pc` and on the stack, said once for all of them (spec/10_state.md R13,
R17, spec/20_memory.md R49). -/

namespace Sys2Proof.Machine

variable {i : Instr} {s t : State}

/-- An instruction leaves memory alone or stores one block. -/
theorem exec_mem (h : exec i s = .next t) : t.mem = s.mem ∨ ∃ a bs, t.mem = (s.writeBytes a bs).1.mem := by
  cases i with
  | binaryCodeI x | copyRegistersToI x =>
    cases h
    exact .inr ⟨_, _, State.endAccess_mem _ _⟩
  | copyIToRegisters x =>
    cases h
    exact .inl ((State.endAccess_mem _ _).trans (State.loadRegs_mem _ _))
  | skipEqImm | skipNeImm | skipEqReg | skipNeReg | skipKeyPressed | skipKeyNotPressed =>
    cases h
    exact .inl (State.skipIf_mem _ _)
  | ret =>
    cases hs : s.stack with
    | nil =>
      obtain rfl := eq_of_exec (exec_ret_of_stack_eq_nil hs) h
      exact .inl rfl
    | cons a rest =>
      obtain rfl := eq_of_exec (exec_ret_of_stack_eq_cons hs) h
      exact .inl rfl
  | call nnn =>
    cases hfull : s.stackFull with
    | false =>
      obtain rfl := eq_of_exec (exec_call_of_room nnn hfull) h
      exact .inl rfl
    | true =>
      obtain rfl := eq_of_exec (exec_call_of_full nnn hfull) h
      exact .inl rfl
  | subN x y | draw x y n | waitForKeyPress x =>
    cases h
    left
    split <;> rfl
  | _ =>
    cases h
    exact .inl rfl

theorem addrOperand_toNat_lt (nnn : Addr) : (addrOperand nnn).toNat < 4096 := addrOperand_toNat nnn ▸ nnn.isLt

theorem State.skipIf_pc_cases (s : State) (c : Bool) : (s.skipIf c).pc = s.pc ∨ (s.skipIf c).pc = s.pc + 2 := by
  cases c with
  | false => exact .inl rfl
  | true => exact .inr rfl

/-- Where an instruction leaves `pc`: where it was, one instruction further, at most `0x10FE`, or at a return
address. -/
theorem exec_pc (h : exec i s = .next t) :
    t.pc = s.pc ∨ t.pc = s.pc + 2 ∨ t.pc.toNat ≤ 0x10FE ∨ t.pc ∈ s.stack := by
  have hframe := exec_frame h
  cases i with
  | jump nnn =>
    cases h
    have hlt := addrOperand_toNat_lt nnn
    exact .inr (.inr (.inl (Nat.le_trans hlt.le (by decide))))
  | jumpOffset nnn =>
    cases h
    have hsum := s.regWord_add_addrOperand_toNat 0 nnn
    have hreg : (s.reg 0).toNat < 256 := (s.reg 0).isLt
    have haddr : nnn.toNat < 4096 := nnn.isLt
    exact .inr (.inr (.inl (hsum.trans_le (by omega))))
  | call nnn =>
    cases hfull : s.stackFull with
    | false =>
      obtain rfl := eq_of_exec (exec_call_of_room nnn hfull) h
      have hlt := addrOperand_toNat_lt nnn
      exact .inr (.inr (.inl (Nat.le_trans hlt.le (by decide))))
    | true =>
      obtain rfl := eq_of_exec (exec_call_of_full nnn hfull) h
      exact .inl rfl
  | ret =>
    cases hs : s.stack with
    | nil =>
      obtain rfl := eq_of_exec (exec_ret_of_stack_eq_nil hs) h
      exact .inl rfl
    | cons a rest =>
      obtain rfl := eq_of_exec (exec_ret_of_stack_eq_cons hs) h
      exact .inr (.inr (.inr List.mem_cons_self))
  | skipEqImm | skipNeImm | skipEqReg | skipNeReg | skipKeyPressed | skipKeyNotPressed =>
    cases h
    exact (s.skipIf_pc_cases _).imp_right .inl
  | _ => exact .inl (hframe.pc_eq rfl)

/-- What an instruction leaves on the stack: what was there, with the return address of a `CALL` that had room on top of
it, or without the address a `RET` popped. -/
theorem exec_stack (h : exec i s = .next t) :
    t.stack = s.stack ∨ (t.stack = s.pc :: s.stack ∧ s.stackFull = false) ∨ ∃ a, s.stack = a :: t.stack := by
  have hframe := exec_frame h
  cases i with
  | call nnn =>
    cases hfull : s.stackFull with
    | false =>
      obtain rfl := eq_of_exec (exec_call_of_room nnn hfull) h
      exact .inr (.inl ⟨rfl, rfl⟩)
    | true =>
      obtain rfl := eq_of_exec (exec_call_of_full nnn hfull) h
      exact .inl rfl
  | ret =>
    cases hs : s.stack with
    | nil =>
      obtain rfl := eq_of_exec (exec_ret_of_stack_eq_nil hs) h
      exact .inl hs
    | cons a rest =>
      obtain rfl := eq_of_exec (exec_ret_of_stack_eq_cons hs) h
      exact .inr (.inr ⟨a, rfl⟩)
  | _ => exact .inl (hframe.stack_eq rfl)

end Sys2Proof.Machine
end

section
/-! The invariant of every run: what each kind of update needs to keep it, and that every operation keeps it
(spec/10_state.md R13, R17, spec/60_exceptions.md R150). -/

namespace Sys2Proof.Machine

variable {i : Instr} {s t : State}

theorem State.Inv.withMode (hs : s.Inv) {m : Mode} (hm : ∀ f, m = .faulted f → f.legal s.cfg) :
    ({ s with mode := m } : State).Inv :=
  { hs with fault_legal := hm }

theorem State.Inv.withPc (hs : s.Inv) {a : Word} (ha : a.toNat ≤ 0x10FE) : ({ s with pc := a } : State).Inv :=
  { hs with pc_le := ha }

/-- The host's side of the state has no part in the invariant. -/
theorem State.Inv.withHostSide (hs : s.Inv) (host : List HostOp) (draws : Nat) (key : Option Key) (rnd : Byte)
    (z : Bool) : ({ s with host := host, draws := draws, key := key, rnd := rnd, frameReady := z } : State).Inv :=
  ⟨hs.cfg_wf, hs.mem_wf, hs.pc_le, hs.stack_range, hs.stack_depth, hs.fault_legal⟩

theorem State.Inv.writeBytes (hs : s.Inv) (a : Nat) (bs : List Byte) : (s.writeBytes a bs).1.Inv := by
  have hwf := State.writeBytes_wf a bs hs.mem_wf
  rw [State.writeBytes_eq]
  exact { hs with mem_wf := hwf }

theorem State.inv_fresh {cfg : Config} (hcfg : cfg.wf = true) : (State.fresh cfg).Inv where
  cfg_wf := hcfg
  mem_wf := Memory.wf_nil cfg
  pc_le := show (0x200#16).toNat ≤ 0x10FE by decide
  stack_range := nofun
  stack_depth _ _ := Nat.zero_le _
  fault_legal := nofun

/-- Settles O17: the reset state is a fresh machine with the default parameters. -/
theorem resetMeetsInvariant : Obligations.ResetMeetsInvariant := State.inv_fresh (by decide)

/-! ## Instructions -/

/-- A fault that an instruction raises has a legal record. -/
theorem Raises.legal {c : FaultCause} (hc : Raises s i c) {a : Word} (ha : a.toNat ≤ 0x10FE) :
    FaultRecord.legal s.cfg { cause := c, faultPc := a } := by
  refine ⟨ha, ?_⟩
  cases hc with
  | ret => trivial
  | call nnn hfull => exact State.stackDepth_ne_none_of_stackFull hfull
  | _ => exact le_max_right _ _

/-- Every instruction keeps the invariant, from the `pc` that a fetch leaves. -/
theorem exec_inv (hs : s.Inv) (hlow : 2 ≤ s.pc.toNat) (hhigh : s.pc.toNat ≤ 4096) (h : exec i s = .next t) :
    t.Inv := by
  have hcfg : t.cfg = s.cfg := (exec_frame h).cfg_eq
  refine ⟨hcfg ▸ hs.cfg_wf, ?_, ?_, ?_, ?_, ?_⟩
  · rw [hcfg]
    obtain hm | ⟨a, bs, hm⟩ := exec_mem h
    · exact hm ▸ hs.mem_wf
    · exact hm ▸ State.writeBytes_wf a bs hs.mem_wf
  · obtain hpc | hpc | hpc | hpc := exec_pc h
    · exact hpc ▸ hs.pc_le
    · rw [hpc]
      bv_omega
    · exact hpc
    · exact Nat.le_trans (hs.stack_range _ hpc).2 (by decide)
  · intro a ha
    obtain hst | ⟨hst, -⟩ | ⟨b, hst⟩ := exec_stack h
    · exact hs.stack_range a (hst ▸ ha)
    · rw [hst] at ha
      obtain rfl | ha := List.mem_cons.mp ha
      · exact ⟨hlow, hhigh⟩
      · exact hs.stack_range a ha
    · exact hs.stack_range a (hst ▸ List.mem_cons_of_mem b ha)
  · intro d hd
    rw [hcfg] at hd
    have hdepth := hs.stack_depth d hd
    obtain hst | ⟨hst, hroom⟩ | ⟨b, hst⟩ := exec_stack h
    · exact hst ▸ hdepth
    · exact hst ▸ (State.stackFull_eq_false_iff s).mp hroom d hd
    · rw [hst, List.length_cons] at hdepth
      omega
  · intro f hf
    rw [hcfg]
    obtain ⟨c, hc, hm⟩ | hkeep := exec_faultsOnlyBy h
    · obtain rfl := Mode.faulted.inj (hf.symm.trans hm)
      exact hc.legal (by bv_omega)
    · exact hs.fault_legal f (hkeep f hf)

/-! ## Operations of the host -/

theorem pollWhileWaiting_inv (hs : s.Inv) (x : Reg) : (s.pollWhileWaiting x).Inv := by
  unfold State.pollWhileWaiting
  split
  · exact { hs with fault_legal := nofun }
  · exact hs

theorem stepByMode_inv (hs : s.Inv) (h : s.stepByMode = .next t) : t.Inv := by
  obtain ⟨a, -, hfetch, rfl⟩ | ⟨w, r, -, hfetch, hdec, rfl⟩ | ⟨w, i, -, hfetch, -, hexec⟩ | ⟨x, -, rfl⟩ | ⟨-, rfl⟩ |
    ⟨f, -, rfl⟩ := stepByMode_cases h
  · refine hs.withMode fun f hf => ?_
    obtain rfl := Mode.faulted.inj hf
    obtain ⟨-, rfl⟩ := State.fetchWord_error hfetch
    exact ⟨hs.pc_le, le_max_right _ _⟩
  · have hpc := State.fetchWord_pc hfetch
    refine (hs.withPc (a := s.pc + 2) (by bv_omega)).withMode fun f hf => ?_
    obtain rfl := Mode.faulted.inj hf
    exact ⟨hs.pc_le, decode_of_illegal (illegal_of_decode_error hdec)⟩
  · have hpc := State.fetchWord_pc hfetch
    exact exec_inv (hs.withPc (a := s.pc + 2) (by bv_omega)) (by bv_omega) (by bv_omega) hexec
  · exact pollWhileWaiting_inv hs x
  · exact hs
  · exact hs

theorem tick_inv (hs : s.Inv) : s.tick.Inv := by
  unfold State.tick
  split
  · exact hs
  · exact ⟨hs.cfg_wf, hs.mem_wf, hs.pc_le, hs.stack_range, hs.stack_depth, hs.fault_legal⟩

/-- Settles O16, by the operation: a fresh machine meets the invariant, a `Tick` changes none of its fields, and a
`Step` keeps it. -/
theorem stepKeepsInvariant : Obligations.StepKeepsInvariant := by
  intro s t hs h
  obtain ⟨image, rest, -, -, rfl⟩ | ⟨rest, -, rfl⟩ | ⟨host, draws, key, rnd, -, hstep⟩ := step_cases h
  · exact ((State.inv_fresh hs.cfg_wf).withHostSide rest s.draws none 0 false).writeBytes 0x200 image
  · exact tick_inv (hs.withHostSide rest s.draws s.key s.rnd false)
  · exact stepByMode_inv (hs.withHostSide host draws key rnd false) hstep

end Sys2Proof.Machine
end

section
/-! One `Step`, `Tick` or `Init`, by the run state and by what the fetch reads (spec/40_control_flow.md R80, R81,
spec/10_state.md R28, spec/70_reset_and_hazards.md R180). -/

namespace Sys2Proof.Machine

variable {s : State}

/-! ## A `Step` by run state -/

theorem stepByMode_of_decode {i : Instr} {hi lo : Byte} (hrun : s.mode = .running)
    (hhi : s.readByte s.pc.toNat = some hi) (hlo : s.readByte (s.pc.toNat + 1) = some lo)
    (hdec : decode (wordOfBytes hi lo) = .ok i) : s.stepByMode = exec i s.advance := by
  have hfetch : s.fetchWord = .ok (wordOfBytes hi lo) := (s.fetchWord_eq_ok_iff _).mpr ⟨hi, lo, hhi, hlo, rfl⟩
  simp only [State.stepByMode, hrun, State.cycle, hfetch, hdec]

theorem stepByMode_of_illegal {hi lo : Byte} (hrun : s.mode = .running)
    (hhi : s.readByte s.pc.toNat = some hi) (hlo : s.readByte (s.pc.toNat + 1) = some lo)
    (hill : legalWord (wordOfBytes hi lo) = false) :
    s.stepByMode = .next (s.advance.raise s.pc (.decodeError (wordOfBytes hi lo))) := by
  have hfetch : s.fetchWord = .ok (wordOfBytes hi lo) := (s.fetchWord_eq_ok_iff _).mpr ⟨hi, lo, hhi, hlo, rfl⟩
  simp only [State.stepByMode, hrun, State.cycle, hfetch, decode_of_illegal hill]

theorem fetchWord_of_ge (h : 4095 ≤ s.pc.toNat) : s.fetchWord = .error (max s.pc.toNat 4096) := by
  cases hfetch : s.fetchWord with
  | ok w => exact absurd (State.fetchWord_pc hfetch) (by omega)
  | error a =>
    obtain ⟨-, rfl⟩ := State.fetchWord_error hfetch
    rfl

theorem stepByMode_of_ge (hrun : s.mode = .running) (h : 4095 ≤ s.pc.toNat) :
    s.stepByMode = .next (s.raise s.pc (.memoryBoundsError (max s.pc.toNat 4096))) := by
  simp only [State.stepByMode, hrun, State.cycle, fetchWord_of_ge h]

theorem stepByMode_of_waiting {x : Reg} (h : s.mode = .waiting x) : s.stepByMode = .next (s.pollWhileWaiting x) := by
  simp only [State.stepByMode, h]

theorem stepByMode_of_halted (h : s.mode = .halted) : s.stepByMode = .next s := by
  simp only [State.stepByMode, h]

theorem stepByMode_of_faulted {f : FaultRecord} (h : s.mode = .faulted f) : s.stepByMode = .next s := by
  simp only [State.stepByMode, h]

theorem continues_of_halted (h : s.mode = .halted) : s.continues = false := by
  simp only [State.continues, h]

theorem continues_of_faulted {f : FaultRecord} (h : s.mode = .faulted f) : s.continues = false := by
  simp only [State.continues, h]

theorem continues_of_running (h : s.mode = .running) : s.continues = true := by
  simp only [State.continues, h]

theorem continues_of_waiting {x : Reg} (h : s.mode = .waiting x) : s.continues = true := by
  simp only [State.continues, h]

/-- Settles O5: both kinds of `Step` go by what the fetch reads. -/
theorem stepRunsDecodedInstruction : Obligations.StepRunsDecodedInstruction := by
  intro s i hi lo hrun hhi hlo hdec
  exact ⟨fun key rnd rest hh => (step_step hh).trans (stepByMode_of_decode hrun hhi hlo hdec),
    fun hh => (step_free hh).trans (stepByMode_of_decode hrun hhi hlo hdec)⟩

/-- Settles O6: the fetch faults before the advance. -/
theorem fetchOutOfBoundsFaults : Obligations.FetchOutOfBoundsFaults := by
  intro s key rnd rest hrun hh hpc
  exact ⟨_, (step_step hh).trans (stepByMode_of_ge hrun hpc), State.raise_mode _ _ _,
    continues_of_faulted (State.raise_mode _ _ _), (Frame.refl _).withMode _⟩

/-- Settles O7: the decoder rejects the word after the advance. -/
theorem illegalWordFaults : Obligations.IllegalWordFaults := by
  intro s key rnd rest hi lo hrun hh hhi hlo hill
  exact ⟨_, (step_step hh).trans (stepByMode_of_illegal hrun hhi hlo hill), State.raise_mode _ _ _, rfl,
    continues_of_faulted (State.raise_mode _ _ _), ((Frame.refl _).withPc (s.pc + 2)).withMode _⟩

/-- Settles O10: nothing but the start of the `Step` happens. -/
theorem haltedStepChangesNothing : Obligations.HaltedStepChangesNothing := fun _ _ _ _ hm hh =>
  ⟨(step_step hh).trans (stepByMode_of_halted hm), continues_of_halted hm⟩

/-! ## The key wait -/

theorem keyByte_eq_ofNat (c : Key) : keyByte c = BitVec.ofNat 8 c.toNat := (BitVec.ofNat_toNat 8 c).symm

theorem pollWhileWaiting_of_some {c : Key} (x : Reg) (h : s.key = some c) :
    s.pollWhileWaiting x = { s.setReg x (keyByte c) with mode := .running } := by
  simp only [State.pollWhileWaiting, State.keyPoll, h]

theorem pollWhileWaiting_of_none (x : Reg) (h : s.key = none) : s.pollWhileWaiting x = s := by
  simp only [State.pollWhileWaiting, State.keyPoll, h]

/-- Settles O12, by the answer of the poll. -/
theorem waitingStepPollsOnce : Obligations.WaitingStepPollsOnce := by
  intro s x key rnd rest hm hh
  refine ⟨_, (step_step hh).trans (stepByMode_of_waiting hm), ?_, ?_,
    fun hk => pollWhileWaiting_of_none x hk⟩
  · cases key with
    | none => rw [pollWhileWaiting_of_none x rfl]; exact continues_of_waiting hm
    | some c => rw [pollWhileWaiting_of_some x rfl]; exact continues_of_running rfl
  · rintro c rfl
    rw [pollWhileWaiting_of_some x rfl]
    exact ⟨(State.reg_setReg_same _ x _).trans (keyByte_eq_ofNat c), rfl, (frame_setReg _ x _).withMode _⟩

/-! ## The tick -/

theorem tickDown_toNat (t : Byte) : (tickDown t).toNat = if t.toNat > 0 then t.toNat - 1 else 0 := by
  unfold tickDown
  split
  · next h => simp [h]
  · next h =>
    have hpos : 0 < t.toNat := Nat.pos_of_ne_zero fun h0 => h (BitVec.eq_of_toNat_eq h0)
    rw [if_pos hpos]
    bv_omega

theorem tick_of_faulted {f : FaultRecord} (h : s.mode = .faulted f) : s.tick = s := by
  simp only [State.tick, h]

theorem tick_of_not_faulted (h : ∀ f, s.mode ≠ .faulted f) :
    s.tick = { s with dt := tickDown s.dt, st := tickDown s.st } := by
  unfold State.tick
  split
  · next f hf => exact absurd hf (h f)
  · rfl

theorem frame_tick (s : State) : Frame { dt := true, st := true } s s.tick := by
  simp [Frame]

/-- Settles O11, by whether the machine is in `FAULTED`. -/
theorem tickCountsBothTimersDown : Obligations.TickCountsBothTimersDown := by
  intro s rest hh
  refine ⟨_, step_tick hh, frame_tick _, fun hm => ?_, fun f hf => ?_⟩
  · have htick := tick_of_not_faulted (s := { s with host := rest, frameReady := false }) hm
    rw [htick]
    exact ⟨tickDown_toNat s.dt, tickDown_toNat s.st⟩
  · have htick := tick_of_faulted (s := { s with host := rest, frameReady := false }) hf
    rw [htick]
    exact ⟨rfl, rfl⟩

/-- Settles O9, by the host's next operation. -/
theorem faultedIsAbsorbing : Obligations.FaultedIsAbsorbing := by
  intro s f hm hinit
  have hstop : ∃ t, step s = .next t ∧ ∃ host draws key rnd,
      t = { s with host := host, draws := draws, key := key, rnd := rnd, frameReady := false } := by
    match hh : s.host with
    | [] => exact ⟨_, (step_free hh).trans (stepByMode_of_faulted hm), _, _, _, _, rfl⟩
    | .step key rnd :: rest => exact ⟨_, (step_step hh).trans (stepByMode_of_faulted hm), _, _, _, _, rfl⟩
    | .tick :: rest => exact ⟨_, (step_tick hh).trans (congrArg _ (tick_of_faulted hm)), _, _, _, _, rfl⟩
    | .init image :: rest => exact absurd hh (hinit image rest)
  obtain ⟨_, hstep, host, draws, key, rnd, rfl⟩ := hstop
  exact ⟨_, hstep, hm, rfl, rfl, rfl, rfl, rfl, rfl, rfl, rfl, rfl, rfl, continues_of_faulted hm⟩

end Sys2Proof.Machine
end

section
/-! What `Init` leaves and what the reset state holds (spec/10_state.md R32, spec/70_reset_and_hazards.md R180,
spec/20_memory.md R45). -/

namespace Sys2Proof.Machine

variable {cfg : Config} {a k : Nat}

theorem resetByte_of_font (hk : k < 80) : resetByte cfg (cfg.fontBase + k) = cfg.fontData.getD k 0 := by
  rw [resetByte, if_pos ⟨Nat.le_add_right _ _, by omega⟩, Nat.add_sub_cancel_left]

theorem resetByte_of_outside (h : ¬(cfg.fontBase ≤ a ∧ a < cfg.fontBase + 80)) : resetByte cfg a = 0 := if_neg h

/-- A machine whose memory lists nothing reads the reset contents. -/
theorem readByte_of_mem_nil {s : State} (hmem : s.mem = []) (ha : a < 4096) :
    s.readByte a = some (resetByte s.cfg a) := by
  rw [State.readByte_of_lt s ha, hmem]
  rfl

theorem Config.fontData_length (h : cfg.wf = true) : cfg.fontData.length = 80 := by
  simp_all [Config.wf, Config.fontSizeOk]

theorem Config.fontBase_le (h : cfg.wf = true) : cfg.fontBase + 80 ≤ 0x200 := by
  simp_all [Config.wf, Config.fontPlaceOk]

theorem reg_fresh (cfg : Config) (r : Reg) : (State.fresh cfg).reg r = 0 := by
  simp [State.reg, State.fresh]

theorem fontData_getD (hwf : cfg.wf = true) (hk : k < 80) : some (cfg.fontData.getD k 0) = cfg.fontData[k]? := by
  have hlt : k < cfg.fontData.length := (Config.fontData_length hwf).symm ▸ hk
  rw [List.getD_eq_getElem _ _ hlt, List.getElem?_eq_getElem hlt]

theorem pixel_fresh (cfg : Config) (c : Fin 64) (r : Fin 32) : (State.fresh cfg).pixel c r = false :=
  Display.pixel_clear c r

/-- Settles O13: the image is stored into a fresh machine, clear of the font. -/
theorem initLoadsImageIntoFreshMachine : Obligations.InitLoadsImageIntoFreshMachine := by
  intro s image rest hh hlen hwf
  have hbase := Config.fontBase_le hwf
  obtain ⟨hreg, hi, hpc, hdt, hst, hstack, hpixel, hmode, hready, hread, hcfg, hhost, -⟩ :=
    frame_writeBytes (s.emptied rest) 0x200 image
  refine ⟨_, step_init_of_le hh hlen, fun r => (hreg r List.not_mem_nil).trans (reg_fresh s.cfg r), hi rfl, hpc rfl,
    hdt rfl, hst rfl, hstack rfl, fun c r => (hpixel rfl c r).trans (pixel_fresh s.cfg c r), hmode rfl, hready rfl,
    hcfg, hhost, fun k hk => ?_, fun k hk => ?_, fun a ha hout himage => ?_⟩
  · rw [State.readByte_writeBytes, if_pos ⟨by omega, by omega, by omega⟩, Nat.add_sub_cancel_left]
  · have himage : ¬(0x200 ≤ s.cfg.fontBase + k ∧ s.cfg.fontBase + k < 0x200 + image.length) := by omega
    rw [hread _ himage, readByte_of_mem_nil rfl (by omega), ← fontData_getD hwf hk]
    exact congrArg some (resetByte_of_font hk)
  · rw [hread a himage, readByte_of_mem_nil rfl ha]
    exact congrArg some (resetByte_of_outside hout)

/-- Settles O18: a fresh machine with the default parameters, its two glyphs read off the font. -/
theorem resetValues : Obligations.ResetValues := by
  refine ⟨reg_fresh _, rfl, rfl, rfl, rfl, rfl, rfl, rfl, pixel_fresh _, fun a ha hout => ?_, by decide, by decide⟩
  rw [readByte_of_mem_nil rfl ha]
  exact congrArg some (resetByte_of_outside hout)

end Sys2Proof.Machine
end

section
/-! A word placed where the next `Step` fetches (log entry 10). -/

namespace Sys2Proof.Machine

/-- The address at which `placeWord` stores. -/
def State.placeAddr (s : State) : Word := if s.pc.toNat ≤ 4094 then s.pc else 0x200

theorem placeAddr_le (s : State) : s.placeAddr.toNat ≤ 4094 := by
  unfold State.placeAddr
  split
  · assumption
  · decide

theorem frame_placeWord (s : State) (w : Word) :
    Frame { memFrom := s.placeAddr.toNat, memCount := 2 }
      { s with pc := s.placeAddr, mode := .running, host := fromFirstStep s.host } (s.placeWord w) :=
  frame_writeBytes _ _ [hiByte w, loByte w]

theorem readByte_placeWord {s : State} {k : Nat} (w : Word) (hk : k < 2) :
    (s.placeWord w).readByte (s.placeAddr.toNat + k) = some ([hiByte w, loByte w][k]'hk) := by
  have hle := placeAddr_le s
  exact State.readByte_writeBytes_of_lt (a := s.placeAddr.toNat) _ hk (by omega)

/-- After `fromFirstStep` the host's next operation is a `Step`. -/
theorem fromFirstStep_cases (ops : List HostOp) :
    fromFirstStep ops = [] ∨ ∃ key rnd rest, fromFirstStep ops = .step key rnd :: rest := by
  induction ops with
  | nil => exact .inl rfl
  | cons op ops ih =>
    cases op with
    | step key rnd => exact .inr ⟨key, rnd, ops, rfl⟩
    | tick | init image => exact ih

theorem withFetchWord_toNat (s : State) (w : Word) : s.withFetchWord 16 w.toNat = s.placeWord w := by
  rw [State.withFetchWord, Nat.mod_eq_of_lt w.isLt, BitVec.ofNat_toNat, BitVec.setWidth_eq]

/-- Settles O60: the placed bytes are those of the encoded word, which decodes to the instruction. -/
theorem placedInstructionRunsNext : Obligations.PlacedInstructionRunsNext := by
  intro s i p
  obtain ⟨-, -, hpc, -, -, -, -, hmode, -, -, -, hhost, -⟩ := frame_placeWord s (encode i)
  have hp : p = s.placeWord (encode i) := withFetchWord_toNat s (encode i)
  rw [← hp] at hpc hmode hhost
  have hpc' : p.pc = s.placeAddr := hpc rfl
  have hrun : p.mode = .running := hmode rfl
  have hhi : p.readByte p.pc.toNat = some (hiByte (encode i)) := by
    rw [hpc', hp]
    exact readByte_placeWord (encode i) (by decide : 0 < 2)
  have hlo : p.readByte (p.pc.toNat + 1) = some (loByte (encode i)) := by
    rw [hpc', hp]
    exact readByte_placeWord (encode i) (by decide : 1 < 2)
  have hdec : decode (wordOfBytes (hiByte (encode i)) (loByte (encode i))) = .ok i := by
    rw [wordOfBytes_hi_lo, decode_encode]
  obtain ⟨hruns, hfree⟩ := stepRunsDecodedInstruction p i _ _ hrun hhi hlo hdec
  refine ⟨hrun, hpc' ▸ placeAddr_le s, ?_⟩
  obtain hnil | ⟨key, rnd, rest, hcons⟩ := fromFirstStep_cases s.host
  · exact ⟨_, _, _, _, hfree (hhost.trans hnil)⟩
  · exact ⟨key, rnd, rest, _, hruns key rnd rest (hhost.trans hcons)⟩

end Sys2Proof.Machine
end

section
/-! The instructions of one path: halt, skips, loads, timers, the key poll and the index register
(spec/40_control_flow.md R82, spec/41_skips.md, spec/42_alu.md R101 to R106, R112, spec/43_display.md R120,
spec/44_timers_keys.md, spec/45_index_memory.md R141, R142). -/

namespace Sys2Proof.Machine

variable {s : State} {x : Reg}

/-- Settles O29: the only update is that of the run state. -/
theorem haltEndsTheRun : Obligations.HaltEndsTheRun := fun s =>
  ⟨_, rfl, rfl, rfl, (Frame.refl s).withMode .halted⟩

/-! ## Skips -/

theorem skipIf_beq_pc (s : State) (a b : Byte) : (s.skipIf (a == b)).pc = if a = b then s.pc + 2 else s.pc := by
  simp only [State.skipIf_pc, beq_iff_eq]

theorem skipIf_bne_pc (s : State) (a b : Byte) : (s.skipIf (a != b)).pc = if a = b then s.pc else s.pc + 2 := by
  simp only [State.skipIf_pc, bne_iff_ne, ne_eq, ite_not]

/-- Settles O34: each of the four is a conditional skip on an equality or its negation. -/
theorem registerSkipsAdvancePc : Obligations.RegisterSkipsAdvancePc := fun s _ _ _ =>
  ⟨⟨_, rfl, skipIf_beq_pc s _ _, frame_skipIf s _⟩, ⟨_, rfl, skipIf_bne_pc s _ _, frame_skipIf s _⟩,
    ⟨_, rfl, skipIf_beq_pc s _ _, frame_skipIf s _⟩, ⟨_, rfl, skipIf_bne_pc s _ _, frame_skipIf s _⟩⟩

theorem keyByte_toNat (c : Key) : (keyByte c).toNat = c.toNat := BitVec.toNat_setWidth_of_le (by decide)

theorem keyPressed_iff (s : State) (x : Reg) :
    s.keyPressed x = true ↔ ∃ c : Key, s.key = some c ∧ c.toNat = (s.reg x).toNat := by
  have hkey (c : Key) : keyByte c = s.reg x ↔ c.toNat = (s.reg x).toNat := by
    rw [← BitVec.toNat_inj, keyByte_toNat]
  unfold State.keyPressed State.keyPoll
  cases s.key with
  | none => simp
  | some c => simp [hkey]

/-- Settles O35: both are conditional skips on the poll, one on its negation. -/
theorem keySkipsCompareWholeRegister : Obligations.KeySkipsCompareWholeRegister := by
  intro s x
  have hno (h : ∀ c : Key, s.key = some c → c.toNat ≠ (s.reg x).toNat) : s.keyPressed x = false := by
    rw [← Bool.not_eq_true, keyPressed_iff]
    rintro ⟨c, hc, he⟩
    exact h c hc he
  refine ⟨⟨_, rfl, frame_skipIf s _, fun h => ?_, fun h => ?_⟩,
    ⟨_, rfl, frame_skipIf s _, fun h => ?_, fun h => ?_⟩⟩
  · rw [(keyPressed_iff s x).mpr h]; rfl
  · rw [hno h]; rfl
  · rw [(keyPressed_iff s x).mpr h]; rfl
  · rw [hno h]; rfl

/-! ## One destination register, no flag -/

/-- Settles O36: the only update is that of `V[x]`. -/
theorem loadImmSetsRegister : Obligations.LoadImmSetsRegister := fun s x kk =>
  ⟨_, rfl, State.reg_setReg_same s x kk, frame_setReg s x kk⟩

/-- Settles O37: the only update is that of `V[x]`, to a sum of 8 bits. -/
theorem addImmWraps : Obligations.AddImmWraps := by
  refine fun s x kk => ⟨_, rfl, ?_, frame_setReg s x _⟩
  rw [State.reg_setReg_same]
  exact BitVec.toNat_add _ _

/-- Settles O38: the only update of each is that of `V[x]`. -/
theorem moveAndLogicLeaveFlagAlone : Obligations.MoveAndLogicLeaveFlagAlone := by
  refine fun s x y => ⟨⟨_, rfl, State.reg_setReg_same s x _, frame_setReg s x _⟩,
    ⟨_, rfl, frame_setReg s x _, ?_⟩, ⟨_, rfl, frame_setReg s x _, ?_⟩, ⟨_, rfl, frame_setReg s x _, ?_⟩⟩
  · intro k
    rw [State.reg_setReg_same, BitVec.getLsbD_or]
  · intro k
    rw [State.reg_setReg_same, BitVec.getLsbD_and]
  · intro k
    rw [State.reg_setReg_same, BitVec.getLsbD_xor, Bool.bne_eq_xor]

/-- Settles O43: the only update is that of `V[x]`, to a bitwise AND. -/
theorem randomIsMaskedByImmediate : Obligations.RandomIsMaskedByImmediate := by
  refine fun s x kk => ⟨_, rfl, frame_setReg s x _, fun k => ?_⟩
  rw [State.reg_setReg_same]
  exact BitVec.getLsbD_and

/-! ## The display, the timers, the key and the index register -/

/-- Settles O44: the framebuffer becomes the clear one. -/
theorem clearScreenUnsetsEveryPixel : Obligations.ClearScreenUnsetsEveryPixel := fun s =>
  ⟨_, rfl, Display.pixel_clear, rfl, (Frame.refl s).withDisplay _ true⟩

/-- Settles O49: each is one copy. -/
theorem timerAccessesCopy : Obligations.TimerAccessesCopy := fun s x =>
  ⟨⟨_, rfl, State.reg_setReg_same s x _, frame_setReg s x _⟩, ⟨_, rfl, rfl, (Frame.refl s).withDt _⟩,
    ⟨_, rfl, rfl, (Frame.refl s).withSt _⟩⟩

theorem exec_waitForKeyPress_of_some {c : Key} (x : Reg) (h : s.key = some c) :
    exec (.waitForKeyPress x) s = .next (s.setReg x (keyByte c)) := by
  simp only [exec, execWaitForKeyPress, State.keyPoll, h]

theorem exec_waitForKeyPress_of_none (x : Reg) (h : s.key = none) :
    exec (.waitForKeyPress x) s = .next { s with mode := .waiting x } := by
  simp only [exec, execWaitForKeyPress, State.keyPoll, h]

/-- Settles O50, by the answer of the poll. -/
theorem waitForKeyStoresOrWaits : Obligations.WaitForKeyStoresOrWaits := by
  refine fun s x => ⟨fun c hc => ⟨_, exec_waitForKeyPress_of_some x hc, ?_, frame_setReg s x _⟩,
    fun hnone => ⟨_, exec_waitForKeyPress_of_none x hnone, rfl, rfl, (Frame.refl s).withMode _⟩⟩
  rw [State.reg_setReg_same, keyByte_toNat]

/-- Settles O52: the only update is that of `I`, to a sum of 16 bits. -/
theorem addIWrapsWithoutFlag : Obligations.AddIWrapsWithoutFlag := by
  refine fun s x => ⟨_, rfl, ?_, (Frame.refl s).withI _⟩
  rw [← s.regWord_toNat x]
  exact BitVec.toNat_add _ _

/-- Settles O53: a legal `FONT_BASE` keeps the address below 65536. -/
theorem fontDigitAddress : Obligations.FontDigitAddress := by
  intro s x hwf
  have hbase := Config.fontBase_le hwf
  have hreg : (s.reg x).toNat < 256 := (s.reg x).isLt
  exact ⟨_, rfl, (BitVec.toNat_ofNat _ _).trans (Nat.mod_eq_of_lt (by omega)), (Frame.refl s).withI _⟩

end Sys2Proof.Machine
end

section
/-! The six flag writers (spec/10_state.md R11, spec/42_alu.md R100, R107 to R111). -/

namespace Sys2Proof.Machine

variable {s t : State} {x : Reg}

/-! ## The two orders of writing, and the flag values as numbers -/

theorem reg_writeFlagThenResult_dest (s : State) (x : Reg) (f r : Byte) : (s.writeFlagThenResult x f r).reg x = r := by
  rw [State.reg_writeFlagThenResult, if_pos rfl]

theorem reg_writeFlagThenResult_VF (hx : x ≠ VF) (f r : Byte) : (s.writeFlagThenResult x f r).reg VF = f := by
  rw [State.reg_writeFlagThenResult, if_neg hx.symm, if_pos rfl]

theorem reg_writeResultThenFlag_VF (s : State) (x : Reg) (r f : Byte) : (s.writeResultThenFlag x r f).reg VF = f := by
  rw [State.reg_writeResultThenFlag, if_pos rfl]

theorem reg_writeResultThenFlag_dest (hx : x ≠ VF) (r f : Byte) : (s.writeResultThenFlag x r f).reg x = r := by
  rw [State.reg_writeResultThenFlag, if_neg hx, if_pos rfl]

theorem flagOf_decide (p : Prop) [Decidable p] : flagOf (decide p) = if p then 1 else 0 := by
  simp only [flagOf, decide_eq_true_eq]

theorem lowBitFlag_toNat (a : Byte) : (lowBitFlag a).toNat = a.toNat % 2 := by
  rw [lowBitFlag, BitVec.getLsbD, Nat.testBit_zero, flagOf_decide]
  split
  · next h => exact h.symm
  · next h => exact (Nat.mod_two_ne_one.mp h).symm

theorem highBitFlag_toNat (a : Byte) : (highBitFlag a).toNat = a.toNat / 128 := by
  have ha : a.toNat < 256 := a.isLt
  rw [highBitFlag, BitVec.getLsbD, Nat.testBit_eq_decide_div_mod_eq, flagOf_decide]
  split
  · next h =>
    show 1 = _
    omega
  · next h =>
    show 0 = _
    omega

/-! ## The arithmetic instructions -/

/-- Settles O39: the flag is written before the result. -/
theorem addWritesSumAndCarry : Obligations.AddWritesSumAndCarry := by
  refine fun s x y => ⟨_, rfl, ?_, fun hx => ?_, frame_writeFlagThenResult s x _ _⟩
  · rw [reg_writeFlagThenResult_dest]
    exact BitVec.toNat_add _ _
  · rw [reg_writeFlagThenResult_VF hx]
    exact flagOf_decide _

/-- Settles O40: the result is written before the flag. -/
theorem subWritesDifferenceAndNoBorrow : Obligations.SubWritesDifferenceAndNoBorrow := by
  refine fun s x y => ⟨_, rfl, fun hx => ?_, ?_, frame_writeResultThenFlag s x _ _⟩
  · rw [reg_writeResultThenFlag_dest hx]
    bv_omega
  · rw [reg_writeResultThenFlag_VF]
    exact flagOf_decide _

/-- Settles O41: the flag, the bit moved out, is written before the result. -/
theorem shiftsMoveOneBit : Obligations.ShiftsMoveOneBit := by
  refine fun s x y => ⟨⟨_, rfl, ?_, fun hx => ?_, frame_writeFlagThenResult s x _ _⟩,
    ⟨_, rfl, ?_, fun hx => ?_, frame_writeFlagThenResult s x _ _⟩⟩
  · rw [reg_writeFlagThenResult_dest, BitVec.toNat_ushiftRight, Nat.shiftRight_eq_div_pow]
  · rw [reg_writeFlagThenResult_VF hx, lowBitFlag_toNat]
  · rw [reg_writeFlagThenResult_dest, BitVec.toNat_shiftLeft, Nat.shiftLeft_eq]
  · rw [reg_writeFlagThenResult_VF hx, highBitFlag_toNat]

theorem exec_subN_of_gt {y : Reg} (h : (s.reg y).toNat > (s.reg x).toNat) :
    exec (.subN x y) s = .next (s.writeResultThenFlag x (s.reg y - s.reg x) 1) := by
  simp only [exec, execSubN, reverseGreater, h, decide_true, if_true]

theorem exec_subN_of_le {y : Reg} (h : (s.reg y).toNat ≤ (s.reg x).toNat) :
    exec (.subN x y) s = .next (s.setReg VF 0) := by
  simp [exec, execSubN, reverseGreater, h]

/-- Settles O42, by the two paths. -/
theorem subNShortCircuits : Obligations.SubNShortCircuits := by
  refine fun s x y => ⟨fun h => ⟨_, exec_subN_of_gt h, fun hx => ?_, reg_writeResultThenFlag_VF s x _ 1,
    frame_writeResultThenFlag s x _ 1⟩, fun h => ⟨_, exec_subN_of_le h, State.reg_setReg_same s VF 0,
    frame_setReg s VF 0⟩⟩
  rw [reg_writeResultThenFlag_dest hx]
  bv_omega

/-! ## The flag of each -/

/-- A `Dxyn` that leaves the run state alone has read every row. -/
theorem exec_draw_of_mode_eq {y : Reg} {n : Fin 16} (h : exec (.draw x y n) s = .next t) (hm : t.mode = s.mode)
    (hs : ∀ f, s.mode ≠ .faulted f) : t = s.drawSprite x y n := by
  by_cases hfits : n = 0 ∨ s.i.toNat + n.val ≤ 4096
  · exact eq_of_exec h (exec_draw_of_fits hfits)
  · obtain ⟨hn, hout⟩ := not_or.mp hfits
    obtain rfl := eq_of_exec h (exec_draw_of_leaves hn (Nat.lt_of_not_le hout))
    exact absurd hm.symm (hs _)

/-- Settles O21, from what each of the six leaves. -/
theorem flagWritersSetVF : Obligations.FlagWritersSetVF := by
  intro s x y hx
  refine ⟨fun t h => ?_, fun t h => ?_, fun t h => ?_, fun t h => ?_, fun t h => ?_, fun n t h hm hs => ?_⟩
  · obtain ⟨u, hu, -, hflag, -⟩ := addWritesSumAndCarry s x y
    exact eq_of_exec hu h ▸ hflag hx
  · obtain ⟨u, hu, -, hflag, -⟩ := subWritesDifferenceAndNoBorrow s x y
    exact eq_of_exec hu h ▸ hflag
  · obtain ⟨⟨u, hu, -, hflag, -⟩, -⟩ := shiftsMoveOneBit s x y
    exact eq_of_exec hu h ▸ hflag hx
  · split
    · next hgt =>
      obtain rfl := eq_of_exec h (exec_subN_of_gt hgt)
      exact reg_writeResultThenFlag_VF s x _ 1
    · next hle =>
      obtain rfl := eq_of_exec h (exec_subN_of_le (Nat.le_of_not_lt hle))
      exact State.reg_setReg_same s VF 0
  · obtain ⟨-, u, hu, -, hflag, -⟩ := shiftsMoveOneBit s x y
    exact eq_of_exec hu h ▸ hflag hx
  · obtain rfl := exec_draw_of_mode_eq h hm hs
    refine ⟨?_, fun hkeep => reg_VF_drawSprite_eq_zero fun c r hset => ?_⟩
    · rintro ⟨c, r, hset, hunset⟩
      rw [pixel_drawSprite, hset] at hunset
      exact reg_VF_drawSprite_eq_one ⟨c, r, hset, by simpa using hunset⟩
    · have hstill := hkeep c r hset
      rw [pixel_drawSprite, hset] at hstill
      simpa using hstill

end Sys2Proof.Machine
end

section
/-! What the framebuffer, the keypad answer and the random byte can influence: an instruction that does not sample them
does the same on a state with others (spec/10_state.md R29, R30, spec/20_memory.md R55). -/

namespace Sys2Proof.Machine

variable {i : Instr} {s t : State}

/-- The state with another framebuffer, another keypad answer and another random byte. -/
def State.withOutside (s : State) (d : Display) (k : Option Key) (b : Byte) : State :=
  { s with fb := d, key := k, rnd := b }

/-- The instructions that draw: `CLS` and `DRW`. -/
def drawsPixels : Instr → Bool
  | .clearScreen | .draw _ _ _ => true
  | _ => false

/-- The instructions that sample the keypad answer: `SKP`, `SKNP` and `Fx0A`. -/
def samplesKey : Instr → Bool
  | .skipKeyPressed _ | .skipKeyNotPressed _ | .waitForKeyPress _ => true
  | _ => false

/-- The instruction that samples the random byte: `RND`. -/
def samplesByte : Instr → Bool
  | .randomAnd _ _ => true
  | _ => false

/-! ## The shared operations -/

section
variable (s) (d : Display) (k : Option Key) (b : Byte)

theorem skipIf_withOutside (c : Bool) : (s.withOutside d k b).skipIf c = (s.skipIf c).withOutside d k b := by
  cases c <;> rfl

theorem endAccess_withOutside (e : Option Nat) :
    (s.withOutside d k b).endAccess e = (s.endAccess e).withOutside d k b := by
  cases e <;> rfl

theorem loadRegs_withOutside (bs : List Byte) :
    (s.withOutside d k b).loadRegs bs = (s.loadRegs bs).withOutside d k b := rfl

theorem readBytes_withOutside (a n : Nat) : (s.withOutside d k b).readBytes a n = s.readBytes a n := by
  induction n generalizing a with
  | zero => rfl
  | succ n ih =>
    have hbyte : (s.withOutside d k b).readByte a = s.readByte a := rfl
    simp only [State.readBytes, hbyte, ih]

theorem writeBytes_withOutside (a : Nat) (bs : List Byte) :
    (s.withOutside d k b).writeBytes a bs =
      ((s.writeBytes a bs).1.withOutside d k b, (s.writeBytes a bs).2) := by
  induction bs generalizing s a with
  | nil => rfl
  | cons c bs ih =>
    unfold State.writeBytes
    by_cases ha : a < 4096
    · rw [State.writeByte_of_lt _ c ha, State.writeByte_of_lt _ c ha]
      exact ih { s with mem := Memory.set s.cfg s.mem a c } (a + 1)
    · rw [State.writeByte_of_ge _ c (Nat.le_of_not_lt ha), State.writeByte_of_ge _ c (Nat.le_of_not_lt ha)]

end

theorem exec_draw_withDraws {x y : Reg} {n : Fin 16} (k : Option Key) (b : Byte)
    (h : exec (.draw x y n) s = .next t) :
    exec (.draw x y n) (s.withOutside s.fb k b) = .next (t.withOutside t.fb k b) := by
  have hdrawn : (s.withOutside s.fb k b).drawn x y n = s.drawn x y n := by
    rw [State.drawn, readBytes_withOutside]
    rfl
  by_cases hfits : n = 0 ∨ s.i.toNat + n.val ≤ 4096
  · obtain rfl := eq_of_exec (exec_draw_of_fits hfits) h
    rw [exec_draw_of_fits (s := s.withOutside s.fb k b) hfits, State.drawSprite, hdrawn]
    rfl
  · obtain ⟨hn, hout⟩ := not_or.mp hfits
    have hleaves := Nat.lt_of_not_le hout
    obtain rfl := eq_of_exec (exec_draw_of_leaves hn hleaves) h
    rw [exec_draw_of_leaves (s := s.withOutside s.fb k b) hn hleaves, hdrawn]
    rfl

/-- An instruction that samples none of what is changed does the same, and keeps the change; one that draws leaves its
own framebuffer. -/
theorem exec_withOutside {d : Display} {k : Option Key} {b : Byte} (hd : drawsPixels i = true → d = s.fb)
    (hk : samplesKey i = true → k = s.key) (hb : samplesByte i = true → b = s.rnd) (h : exec i s = .next t) :
    exec i (s.withOutside d k b) = .next (t.withOutside (if drawsPixels i then t.fb else d) k b) := by
  cases i with
  | skipEqImm | skipNeImm | skipEqReg | skipNeReg =>
    cases h
    exact congrArg _ (skipIf_withOutside s d k b _)
  | skipKeyPressed x | skipKeyNotPressed x =>
    cases h
    obtain rfl := hk rfl
    exact congrArg _ (skipIf_withOutside s d s.key b _)
  | waitForKeyPress x =>
    obtain rfl := hk rfl
    cases hkey : s.key with
    | none =>
      obtain rfl := eq_of_exec (exec_waitForKeyPress_of_none x hkey) h
      exact exec_waitForKeyPress_of_none x rfl
    | some c =>
      obtain rfl := eq_of_exec (exec_waitForKeyPress_of_some x hkey) h
      exact exec_waitForKeyPress_of_some x rfl
  | randomAnd x kk =>
    cases h
    obtain rfl := hb rfl
    rfl
  | ret =>
    cases hs : s.stack with
    | nil =>
      obtain rfl := eq_of_exec (exec_ret_of_stack_eq_nil hs) h
      exact exec_ret_of_stack_eq_nil hs
    | cons a rest =>
      obtain rfl := eq_of_exec (exec_ret_of_stack_eq_cons hs) h
      exact exec_ret_of_stack_eq_cons hs
  | call nnn =>
    cases hfull : s.stackFull with
    | false =>
      obtain rfl := eq_of_exec (exec_call_of_room nnn hfull) h
      exact exec_call_of_room nnn hfull
    | true =>
      obtain rfl := eq_of_exec (exec_call_of_full nnn hfull) h
      exact exec_call_of_full nnn hfull
  | subN x y =>
    obtain hle | hgt := le_or_gt (s.reg y).toNat (s.reg x).toNat
    · obtain rfl := eq_of_exec (exec_subN_of_le hle) h
      exact exec_subN_of_le hle
    · obtain rfl := eq_of_exec (exec_subN_of_gt hgt) h
      exact exec_subN_of_gt hgt
  | draw x y n =>
    obtain rfl := hd rfl
    exact exec_draw_withDraws k b h
  | binaryCodeI x =>
    cases h
    simp only [exec, execBinaryCodeI, writeBytes_withOutside, endAccess_withOutside]
    rfl
  | copyRegistersToI x =>
    cases h
    simp only [exec, execCopyRegistersToI, writeBytes_withOutside, endAccess_withOutside]
    rfl
  | copyIToRegisters x =>
    cases h
    simp only [exec, execCopyIToRegisters, readBytes_withOutside, loadRegs_withOutside, endAccess_withOutside]
    rfl
  | _ =>
    cases h
    rfl

/-! ## The two statements -/

theorem exec_fb_of_not_draws (h : exec i s = .next t) (hi : drawsPixels i = false) : t.fb = s.fb := by
  obtain ⟨-, -, -, -, -, -, hpixel, -⟩ := exec_frame h
  have hw : (execWrites s i).fb = false := by
    cases i with
    | clearScreen | draw => cases hi
    | _ => rfl
  exact Display.ext_pixel (hpixel hw)

theorem exec_withDraws {k : Option Key} {b : Byte} (hk : samplesKey i = true → k = s.key)
    (hb : samplesByte i = true → b = s.rnd) (h : exec i s = .next t) :
    exec i { s with key := k, rnd := b } = .next { t with key := k, rnd := b } := by
  have hrun := exec_withOutside (d := s.fb) (fun _ => rfl) hk hb h
  have hfb : (if drawsPixels i then t.fb else s.fb) = t.fb := by
    cases hi : drawsPixels i with
    | true => rfl
    | false => exact (exec_fb_of_not_draws h hi).symm
  rw [hfb] at hrun
  exact hrun

theorem samplesKey_eq_false (hskp : ∀ x, i ≠ .skipKeyPressed x) (hsknp : ∀ x, i ≠ .skipKeyNotPressed x)
    (hwait : ∀ x, i ≠ .waitForKeyPress x) : samplesKey i = false := by
  cases i with
  | skipKeyPressed x => exact absurd rfl (hskp x)
  | skipKeyNotPressed x => exact absurd rfl (hsknp x)
  | waitForKeyPress x => exact absurd rfl (hwait x)
  | _ => rfl

theorem samplesByte_eq_false (hrnd : ∀ x kk, i ≠ .randomAnd x kk) : samplesByte i = false := by
  cases i with
  | randomAnd x kk => exact absurd rfl (hrnd x kk)
  | _ => rfl

/-- No instruction changes the draws of its `Step`. -/
theorem exec_draws (h : exec i s = .next t) : t.key = s.key ∧ t.rnd = s.rnd :=
  let ⟨_, _, _, _, _, _, _, _, _, _, _, _, _, hdraws⟩ := exec_frame h
  hdraws

/-- Settles O26: the two draws are changed one at a time. -/
theorem drawsAreSampledOnlyByTheirInstructions : Obligations.DrawsAreSampledOnlyByTheirInstructions := by
  intro i s t h
  obtain ⟨hkey, hrnd⟩ := exec_draws h
  refine ⟨fun k hskp hsknp hwait => ?_, fun b hb => ?_⟩
  · have hno := samplesKey_eq_false hskp hsknp hwait
    have hsame : ({ t with key := k, rnd := s.rnd } : State) = { t with key := k } := by rw [← hrnd]
    exact (exec_withDraws (fun hi => nomatch hno.symm.trans hi) (fun _ => rfl) h).trans (congrArg _ hsame)
  · have hno := samplesByte_eq_false hb
    have hsame : ({ t with key := s.key, rnd := b } : State) = { t with rnd := b } := by rw [← hkey]
    exact (exec_withDraws (fun _ => rfl) (fun hi => nomatch hno.symm.trans hi) h).trans (congrArg _ hsame)

/-- A `DRW` on another framebuffer differs in the framebuffer and `VF` alone. -/
theorem exec_draw_withFb {x y : Reg} {n : Fin 16} (d : Display) (h : exec (.draw x y n) s = .next t) :
    ∃ t', exec (.draw x y n) { s with fb := d } = .next t' ∧ { t' with fb := t.fb, v := t.v } = t ∧
      ∀ r, r ≠ VF → t'.reg r = t.reg r := by
  by_cases hfits : n = 0 ∨ s.i.toNat + n.val ≤ 4096
  · obtain rfl := eq_of_exec (exec_draw_of_fits hfits) h
    refine ⟨_, exec_draw_of_fits (s := { s with fb := d }) hfits, rfl, fun r hr => ?_⟩
    exact (State.reg_setReg_ne { s with fb := d } _ hr).trans (State.reg_setReg_ne s _ hr).symm
  · obtain ⟨hn, hout⟩ := not_or.mp hfits
    have hleaves := Nat.lt_of_not_le hout
    obtain rfl := eq_of_exec (exec_draw_of_leaves hn hleaves) h
    exact ⟨_, exec_draw_of_leaves (s := { s with fb := d }) hn hleaves, rfl, fun _ _ => rfl⟩

/-- Settles O25: `DRW` writes what it reads of the framebuffer to `VF`, `CLS` reads nothing of it, and the others do not
draw. -/
theorem pixelsReachProgramOnlyThroughVF : Obligations.PixelsReachProgramOnlyThroughVF := by
  intro i s t d h
  cases hi : drawsPixels i with
  | false =>
    obtain ⟨hkey, hrnd⟩ := exec_draws h
    have hrun := exec_withOutside (d := d) (fun hdraws => nomatch hi.symm.trans hdraws) (fun _ => rfl) (fun _ => rfl) h
    refine ⟨_, hrun, ?_, fun _ _ => rfl⟩
    rw [State.withOutside, ← hkey, ← hrnd]
  | true =>
    cases i with
    | clearScreen =>
      cases h
      exact ⟨_, rfl, rfl, fun _ _ => rfl⟩
    | draw x y n =>
      obtain ⟨t', ht', hsame, hreg⟩ := exec_draw_withFb d h
      exact ⟨t', ht', hsame, fun r hr => hreg r (hr.resolve_right fun hno => hno x y n rfl)⟩
    | _ => cases hi

end Sys2Proof.Machine
end
